-- ==== Sys2Proof/Word.lean ====
section
/-! DEFINITION. The types of the values the core computes with (00_scope.md section 5 and rule R5). -/

namespace Sys2Proof

/-- A Word: "an unsigned 64-bit integer", the only numeric primitive (R5 `WORD_BITS`, R103).  `+` and `-` on it are the
spec's `+64` and `-64`, `^^^` its `xor`, `|||` its `or`, `>>>` and `<<<` its logical shifts. -/
abbrev Word := BitVec 64

/-- A Byte: an unsigned integer in 0..255. -/
abbrev Byte := BitVec 8

/-- A register number, 0x00 to 0x3F (R29, R70): exactly 64 values, so a number above 0x3F cannot be expressed (U6). -/
abbrev RegNum := BitVec 6

/-- A rotation amount.  Rotations are defined for 1 to 63 only (R102): the bound is part of the value, so that no rotation
by 0 or by 64 can be written (93_implementation_defined.md U1). -/
structure RotAmount where
  val  : Nat
  pos  : 1 ≤ val
  le63 : val ≤ 63
deriving DecidableEq, Repr

/-- A Block: "an ordered pair of words (left, right)", 128 bits (R21). -/
structure Block where
  left  : Word
  right : Word
deriving DecidableEq, Repr

/-- A Key: "an ordered sequence of exactly 4 words" (R22). -/
abbrev Key := Vector Word 4

/-- A round-key schedule: "an ordered sequence of exactly ROUNDS (27) words" (R23). -/
abbrev RoundKeys := Vector Word 27

end Sys2Proof
end

