-- ==== Sys2Proof/Syntax.lean ====
section
/-! DEFINITION. The commands, one constructor per row of spec/opcode_table.json (30_encoding.md rule R73). -/

namespace Sys2Proof

/-- A decoded command.  `ARG` is "the unsigned number w[13:8]" (R74), held as that number. -/
inductive Instr where
  /-- KEYEXP: expand `KEY` into `RK` (R137). -/
  | keyexp
  /-- ENCT: encrypt `LEN` bytes of IN (R165). -/
  | enct
  /-- DECT: decrypt `LEN` bytes of IN (R170). -/
  | dect
  /-- ROR r: rotate `L` right by `r` (R106). -/
  | ror (r : Nat)
  /-- ROL r: rotate `L` left by `r` (R107). -/
  | rol (r : Nat)
  /-- RNDF i: one forward round on `(L, R)` with `RK[i]` (R127). -/
  | rndf (i : Nat)
  /-- RNDI i: one inverse round on `(L, R)` with `RK[i]` (R128). -/
  | rndi (i : Nat)
  /-- ENCB: encrypt the Block in `(L, R)` (R153). -/
  | encb
  /-- DECB: decrypt the Block in `(L, R)` (R154). -/
  | decb
  /-- LDBLK: load `(L, R)` from 16 bytes of IN (R175). -/
  | ldblk
  /-- STBLK: put `(L, R)` to OUT as 16 bytes (R176). -/
  | stblk
deriving DecidableEq, Repr

end Sys2Proof
end

