-- ==== Sys2Proof/WellFormed.lean ====
section
/-! DEFINITION. Which terms of `Instr` are commands the command word can hold. -/

namespace Sys2Proof

/-- An argument fits the 6-bit field `ARG` (R71, R74: 0 to 63).  An argument that fits and is then refused (a rotation by 0,
a round index above 26) is well formed: the word decodes to the command, which raises BadOperand (R76). -/
def argFits (a : Nat) : Bool := decide (a < 64)

/-- A command is well formed when its argument, if it has one, fits `ARG`. -/
def wellFormed : Instr → Bool
  | .keyexp => true
  | .enct => true
  | .dect => true
  | .ror r => argFits r
  | .rol r => argFits r
  | .rndf i => argFits i
  | .rndi i => argFits i
  | .encb => true
  | .decb => true
  | .ldblk => true
  | .stblk => true

end Sys2Proof
end

