-- ==== Sys2Proof/Decode.lean ====
section
/-! DEFINITION. The command word `CMDW64`: its fields, the decoder and the encoder (30_encoding.md rules R71 to R76).
The decoder does steps 1 to 3 of R72, which depend on the word alone; steps 4 to 7 read the state and stand in the
meanings. -/

namespace Sys2Proof

/-- Why a word is no command.  Each raises IllegalCommand (R72 steps 1 to 3, R75, R211). -/
inductive Reject where
  /-- A non-zero bit in 63:14 (step 1). -/
  | reservedBits
  /-- An `OPC` outside 0x01 to 0x03 and 0x10 to 0x17 (step 2). -/
  | unknownOpcode
  /-- A non-zero `ARG` on a command that takes none (step 3). -/
  | argNotZero
deriving DecidableEq, Repr

/-- `OPC`, bits 7:0 (R71). -/
def opcOf (w : Word) : Nat := (w.extractLsb' 0 8).toNat

/-- `ARG`, bits 13:8, an unsigned number (R71, R74). -/
def argOf (w : Word) : Nat := (w.extractLsb' 8 6).toNat

/-- `RSV`, bits 63:14 (R71). -/
def rsvOf (w : Word) : Nat := (w.extractLsb' 14 50).toNat

/-- Step 3 of R72: a command without an argument wants `ARG` = 0. -/
def withoutArg (arg : Nat) (i : Instr) : Except Reject Instr :=
  if arg = 0 then .ok i else .error .argNotZero

/-- Steps 1 to 3 of R72: the command a word encodes, or why it encodes none. -/
def decode (w : Word) : Except Reject Instr :=
  if rsvOf w ≠ 0 then .error .reservedBits
  else
    match opcOf w with
    | 0x01 => withoutArg (argOf w) .keyexp
    | 0x02 => withoutArg (argOf w) .enct
    | 0x03 => withoutArg (argOf w) .dect
    | 0x10 => .ok (.ror (argOf w))
    | 0x11 => .ok (.rol (argOf w))
    | 0x12 => .ok (.rndf (argOf w))
    | 0x13 => .ok (.rndi (argOf w))
    | 0x14 => withoutArg (argOf w) .encb
    | 0x15 => withoutArg (argOf w) .decb
    | 0x16 => withoutArg (argOf w) .ldblk
    | 0x17 => withoutArg (argOf w) .stblk
    | _ => .error .unknownOpcode

/-- A command word with opcode `opc` and argument `arg`: `OPC` + 256 * `ARG`, `RSV` = 0 (R71, R106, R107, R127, R128). -/
def commandWord (opc arg : Nat) : Word := BitVec.ofNat 64 (opc + 256 * arg)

/-- The command word of a well-formed command (R73). -/
def encode : Instr → Word
  | .keyexp => commandWord 0x01 0
  | .enct => commandWord 0x02 0
  | .dect => commandWord 0x03 0
  | .ror r => commandWord 0x10 r
  | .rol r => commandWord 0x11 r
  | .rndf i => commandWord 0x12 i
  | .rndi i => commandWord 0x13 i
  | .encb => commandWord 0x14 0
  | .decb => commandWord 0x15 0
  | .ldblk => commandWord 0x16 0
  | .stblk => commandWord 0x17 0

/-- The value of a command word given as `nbits` bits, bit 0 the least significant; the bits above are 0.  A command is
one 64-bit word and there are no longer forms (R71), so a value that does not fit 64 bits is no command word. -/
def tableWord (nbits w : Nat) : Option Word :=
  if w % 2 ^ nbits < 2 ^ 64 then some (BitVec.ofNat 64 (w % 2 ^ nbits)) else none

/-- The command the decoder reads from the `nbits` bits of `w`. -/
def decodeTableWord (nbits w : Nat) : Option Instr :=
  match tableWord nbits w with
  | none => none
  | some v =>
    match decode v with
    | .ok i => some i
    | .error _ => none

end Sys2Proof
end

