-- ==== Sys2Proof/Config.lean ====
section
/-! DEFINITION. The parameters of this hardware (00_scope.md rules R5 and R6).  The spec leaves no value of a command open
(R7: no draw, no oracle), so there is no free value here. -/

namespace Sys2Proof.Config

/-- The identification string of the configuration (R1; 92_eei_decisions.md D2). -/
def idString : String := "SPECK-CORE W64 B128 K256 R27 ror8 rol3 LE"

/-- `ROUNDS`: rounds of a block transform and entries of the schedule (R5). -/
def rounds : Nat := 27

/-- `BLOCK_BYTES`: bytes of a window (R5). -/
def blockBytes : Nat := 16

/-- `ROR_AMT`: amount of every right rotation of the forward round, and of the left rotation of the inverse (R5, R108). -/
def rorAmt : RotAmount := ⟨8, by decide, by decide⟩

/-- `ROL_AMT`: amount of every left rotation of the forward round, and of the right rotation of the inverse (R5, R108). -/
def rolAmt : RotAmount := ⟨3, by decide, by decide⟩

/-- `PAD_BYTE`: "ASCII space (0x20)" (R5). -/
def padByte : Byte := 0x20#8

end Sys2Proof.Config
end

