-- ==== Sys2Proof/Machine/State.lean ====
section
/-! DEFINITION. The state of SPECK-CORE (10_state.md rule R20), the host's side of it (the transactions it has yet to
issue, the IN and OUT byte streams, the values it has read), why a step can stop, and the state after reset. -/

namespace Sys2Proof.Machine

/-- What a register number names (R29). -/
inductive Reg where
  | ctrl
  | status
  | cmd
  | len
  | key (i : Fin 4)
  | l
  | r
  | rk (i : Fin 27)
  /-- Numbers 0x0A to 0x1F and 0x3B to 0x3F (R30). -/
  | reserved
deriving DecidableEq, Repr

/-- One thing the host does to the core.  `rd`, `wr` and `reset` are the three transactions of R70; `present` and
`withdraw` move bytes the host owns onto and off the IN stream (R20, R55; 95_test_vectors.md P3 line 3). -/
inductive HostAct where
  /-- `RD n` (R190). -/
  | rd (n : RegNum)
  /-- `WR n, v` (R191); with `n` = 0x02, the command `v`. -/
  | wr (n : RegNum) (v : Word)
  /-- `RESET` (R230). -/
  | reset
  /-- The host puts these bytes at the end of IN. -/
  | present (bytes : List Byte)
  /-- The host takes back the bytes of IN the core has not taken. -/
  | withdraw
deriving DecidableEq, Repr

/-- The error kinds the hardware raises (R210; U8: exactly these four). -/
inductive ErrKind where
  | invalidLength
  | illegalCommand
  | noSchedule
  | badOperand
deriving DecidableEq, Repr

/-- Why the machine stops. -/
inductive Fault where
  /-- Raised by ENCT, DECT and LDBLK, after every check has passed, when IN holds fewer bytes than the command takes:
  "the command never completes: a hang" (R241), and "the step has no successor" (U5).  SAFE: the model stops where a host
  that presents the missing bytes later would see the command go on (DEDUCED, notes/assumptions/4.md). -/
  | inputStarved
  /-- Raised by `step` for a transaction R240 forbids while `BUSY` = 1; its effect is unspecified (U3).  No step leaves
  `BUSY` set, so no run from reset comes to it.  SAFE: the model stops (DESIGN CHOICE, notes/assumptions/5.md). -/
  | accessWhileBusy
deriving DecidableEq, Repr

/-- Why the model gives an instruction no meaning. -/
inductive Refusal where
  /-- Raised by an arm of `exec` whose instruction has no meaning yet; no arm does.  SAFE: the model stops. -/
  | notModelled (mnemonic : String)
deriving DecidableEq, Repr

/-- The block buffer's contents: (offset, byte) pairs, offsets rising, no pair with the byte an unlisted offset reads as
(`Memory.wf` in Ops.lean). -/
abbrev Memory := List Host.Cell

/-- The whole state at a command boundary. -/
structure State where
  /-- `CTRL.DIAG`: false in normal mode, true in diagnostic mode (R25, R221). -/
  diag : Bool
  /-- `STATUS.BUSY` (R26, R33). -/
  busy : Bool
  /-- `STATUS.RKV`: `RK` is the schedule of `KEY` (R26, R31). -/
  rkv : Bool
  /-- `STATUS.ERR`, the result code of the latest command (R26, R32, R210). -/
  err : BitVec 4
  /-- `LEN[31:0]` (R28). -/
  len : BitVec 32
  /-- `KEY[0..3]` (R22). -/
  key : Key
  /-- `RK[0..26]` (R23). -/
  rk : RoundKeys
  /-- `L` (R21). -/
  l : Word
  /-- `R` (R21). -/
  r : Word
  /-- `KS_B` (R41, hidden). -/
  ksB : Word
  /-- `KS_A[0..2]` (R41, hidden). -/
  ksA : Vector Word 3
  /-- `KS_I`, 5 bits, range 0 to 26 (R41, hidden). -/
  ksI : Fin 27
  /-- `BUF[0..15]` (R42, R50, hidden). -/
  buf : Memory
  /-- `CNT`, 5 bits, range 0 to 16 (R42, hidden). -/
  cnt : Fin 17
  /-- `BLK`, 29 bits (R42, hidden). -/
  blk : BitVec 29
  /-- `RND`, 5 bits, range 0 to 26 (R42, hidden). -/
  rnd : Fin 27
  /-- The model's own: what the host has yet to do, next first (DESIGN CHOICE, notes/assumptions/1.md and 2.md). -/
  host : List HostAct
  /-- The IN stream: bytes the host presents that the core has not taken, next first (R55; notes/assumptions/2.md). -/
  inp : List Byte
  /-- The OUT stream: bytes the core has put, oldest first (R55; notes/assumptions/2.md). -/
  out : List Byte
  /-- The model's own: the values the host's reads have returned, oldest first (R190; DESIGN CHOICE, notes/assumptions/2.md). -/
  rdata : List Word
deriving DecidableEq, Repr

/-- After reset every piece of state is zero (R45): normal mode, no valid schedule, idle.  No host action is pending and
the streams are empty. -/
def State.reset : State where
  diag := false
  busy := false
  rkv := false
  err := 0
  len := 0
  key := Vector.replicate 4 0
  rk := Vector.replicate 27 0
  l := 0
  r := 0
  ksB := 0
  ksA := Vector.replicate 3 0
  ksI := 0
  buf := []
  cnt := 0
  blk := 0
  rnd := 0
  host := []
  inp := []
  out := []
  rdata := []

/-- What running a command, or a step, answers. -/
abbrev Result := Host.Outcome State Fault Refusal

end Sys2Proof.Machine
end

