-- ==== Sys2Proof/Machine/Flags.lean ====
section
/-! DEFINITION. The flags, `STATUS.BUSY`, `STATUS.RKV` and `STATUS.ERR` (10_state.md rules R26 and R31 to R33), and the words
`STATUS` and `CTRL` read as.  There are no arithmetic flags: no word operation writes a flag (R26, R104). -/

namespace Sys2Proof.Machine

/-- The result code of an error kind (R210).  0 is OK; 2 (FormatError) belongs to host software and 6 to 15 are reserved:
the hardware writes none of these (R220, U8). -/
def ErrKind.code : ErrKind → BitVec 4
  | .invalidLength => 1
  | .illegalCommand => 3
  | .noSchedule => 4
  | .badOperand => 5

/-- The result code of success (R210, R32). -/
def okCode : BitVec 4 := 0

/-- What a read of `STATUS` returns: 56 zero bits, `ERR`, 2 zero bits, `RKV`, `BUSY` (R26, R190). -/
def statusWord (s : State) : Word :=
  0#56 ++ s.err ++ 0#2 ++ BitVec.ofBool s.rkv ++ BitVec.ofBool s.busy

/-- What a read of `CTRL` returns: `DIAG` in bit 0, the reserved bits 0 (R25, R190). -/
def ctrlWord (s : State) : Word := 0#63 ++ BitVec.ofBool s.diag

/-- A command starts: `BUSY` is 1 from the `CMD` write on (R33). -/
def startCommand (s : State) : State := { s with busy := true }

/-- A command ends with result code `c`: `ERR` receives it (R32) and `BUSY` returns to 0 (R33). -/
def endCommand (c : BitVec 4) (s : State) : State := { s with err := c, busy := false }

end Sys2Proof.Machine
end

