-- ==== Sys2Proof/Machine/Operands.lean ====
section
/-! DEFINITION. Operands: what a register number names, the legal values of `ARG`, and the operands a command finds in
the registers (30_encoding.md rules R74 and R77; 10_state.md rule R29). -/

namespace Sys2Proof.Machine

/-- The register map (R29, R30). -/
def regOf (n : RegNum) : Reg :=
  let k := n.toNat
  if k = 0x00 then .ctrl
  else if k = 0x01 then .status
  else if k = 0x02 then .cmd
  else if k = 0x03 then .len
  else if h : 0x04 ≤ k ∧ k ≤ 0x07 then .key ⟨k - 0x04, by omega⟩
  else if k = 0x08 then .l
  else if k = 0x09 then .r
  else if h : 0x20 ≤ k ∧ k ≤ 0x3A then .rk ⟨k - 0x20, by omega⟩
  else .reserved

/-- The number of the command port `CMD` (R27). -/
def cmdNum : RegNum := 0x02#6

/-- `ARG` as a rotation amount: 1 to 63, and nothing else (R74, R102). -/
def rotAmount (r : Nat) : Option RotAmount :=
  if h : 1 ≤ r ∧ r ≤ 63 then some ⟨r, h.1, h.2⟩ else none

/-- `ARG` as a round index: 0 to 26, and nothing else (R74). -/
def roundIndex (i : Nat) : Option (Fin 27) :=
  if h : i ≤ 26 then some ⟨i, by omega⟩ else none

/-- `n = LEN[31:0]`, the byte count of a text command (R77, R165, R170). -/
def textLen (s : State) : Nat := s.len.toNat

/-- The Block in `(L, R)` (R21, R77). -/
def State.block (s : State) : Block := ⟨s.l, s.r⟩

/-- `(L, R) <- b`, both together (R21). -/
def State.withBlock (s : State) (b : Block) : State := { s with l := b.left, r := b.right }

end Sys2Proof.Machine
end

