-- ==== Sys2Proof/Machine/Ops.lean ====
section
/-! DEFINITION. The operations the meanings share: the block buffer, the byte codec of Words and Blocks, raising an error
and ending a command, the checks of 30_encoding.md rule R72 steps 4 to 7, and the plain register reads and writes. -/

namespace Sys2Proof.Machine

/-! ### The block buffer (20_memory.md rule R50): offsets 0 to 15, unlisted offsets hold 0, the reset value (R45; DEDUCED,
notes/assumptions/9.md) -/

/-- The byte at an offset of the block buffer. -/
def Memory.read : Memory → Nat → Byte
  | [], _ => 0#8
  | (b, v) :: rest, a => if a = b then v else Memory.read rest a

/-- Writes one byte, keeping the canonical form: a pair is listed only for a byte that is not 0. -/
def Memory.write : Memory → Nat → Byte → Memory
  | [], a, v => if v = 0#8 then [] else [(a, v)]
  | (b, w) :: rest, a, v =>
    if a < b then (if v = 0#8 then (b, w) :: rest else (a, v) :: (b, w) :: rest)
    else if a = b then (if v = 0#8 then rest else (a, v) :: rest)
    else (b, w) :: Memory.write rest a v

/-- Writes bytes at consecutive offsets, the first at `off`. -/
def Memory.writeBytes : Memory → Nat → List Byte → Memory
  | m, _, [] => m
  | m, off, v :: vs => Memory.writeBytes (Memory.write m off v) (off + 1) vs

/-- The `n` bytes from offset `off` on. -/
def Memory.readBytes (m : Memory) (off n : Nat) : List Byte :=
  (List.range n).map fun j => Memory.read m (off + j)

/-- The canonical form, from offset `lo` on: offsets rise and are below 16 (R56 (b)), no listed byte is 0. -/
def Memory.wfFrom : Nat → Memory → Bool
  | _, [] => true
  | lo, (a, v) :: rest => decide (lo ≤ a) && decide (a < 16) && decide (v ≠ 0#8) && Memory.wfFrom (a + 1) rest

/-- The block buffer's contents are in canonical form. -/
def Memory.wf (m : Memory) : Bool := Memory.wfFrom 0 m

/-! ### The byte codec, little-endian (20_memory.md rules R51 to R53) -/

/-- The little-endian value of bytes: the sum over j of `bs[j] * 2^(8j)` (R52). -/
def leNat : List Byte → Nat
  | [] => 0
  | b :: bs => b.toNat + 256 * leNat bs

/-- The Word of eight bytes, the first the least significant (R51, R52). -/
def leWord (bs : List Byte) : Word := BitVec.ofNat 64 (leNat bs)

/-- The eight bytes of a Word: byte j is `v[8j+7 : 8j]` (R53). -/
def leBytes (v : Word) : List Byte := (List.range 8).map fun j => v.extractLsb' (8 * j) 8

/-- `Decode(b)` for 16 bytes: the first eight are `left`, the last eight `right` (R52). -/
def blockOfBytes (b : List Byte) : Block := ⟨leWord (b.take 8), leWord ((b.drop 8).take 8)⟩

/-- `Encode(l, r)`: 16 bytes (R53). -/
def bytesOfBlock (b : Block) : List Byte := leBytes b.left ++ leBytes b.right

/-- `MemRead(off, 8)` (00_scope.md section 5). -/
def memRead (m : Memory) (off : Nat) : Word := leWord (Memory.readBytes m off 8)

/-- `MemWrite(off, 8, v)` (00_scope.md section 5). -/
def memWrite (m : Memory) (off : Nat) (v : Word) : Memory := Memory.writeBytes m off (leBytes v)

/-! ### How a command ends -/

/-- `raise <Kind>`: taking an error.  `STATUS.ERR` receives the code and nothing else changes: nothing is saved, no byte is
taken or put (R218).  There is no return: the core is idle again (R219). -/
def raise (e : ErrKind) (s : State) : Result := .next (endCommand e.code s)

/-- A command succeeds: `STATUS.ERR <- 0` (R32, R72 step 8). -/
def succeed (s : State) : Result := .next (endCommand okCode s)

/-! ### The checks of R72, in the order the meanings make them (R217) -/

/-- Step 4: a diagnostic command exists only while `CTRL.DIAG` = 1 (R212). -/
def whenDiag (s : State) (k : Result) : Result :=
  if s.diag then k else raise .illegalCommand s

/-- Step 5 for ROR and ROL: the rotation amount (R213). -/
def withRotAmount (r : Nat) (s : State) (k : RotAmount → Result) : Result :=
  match rotAmount r with
  | some a => k a
  | none => raise .badOperand s

/-- Step 5 for RNDF and RNDI: the round index (R213). -/
def withRoundIndex (i : Nat) (s : State) (k : Fin 27 → Result) : Result :=
  match roundIndex i with
  | some j => k j
  | none => raise .badOperand s

/-- Step 6: a command that reads `RK` needs a valid schedule (R214). -/
def whenSchedule (s : State) (k : Result) : Result :=
  if s.rkv then k else raise .noSchedule s

/-- Step 7: DECT needs `LEN[31:0] mod 16` = 0, tested before anything is taken (R171, R215). -/
def whenWholeWindows (s : State) (k : Result) : Result :=
  if textLen s % Config.blockBytes = 0 then k else raise .invalidLength s

/-- The premise of a command that takes `n` bytes from IN: the host presents at least that many (R241).  With the premise
false the command never completes and the step has no successor (U5). -/
def whenInput (n : Nat) (s : State) (k : Result) : Result :=
  if n ≤ s.inp.length then k else .fault .inputStarved

/-! ### Registers -/

/-- What `RD` returns for a register (R190). -/
def readReg (s : State) : Reg → Word
  | .ctrl => ctrlWord s
  | .status => statusWord s
  | .cmd => 0
  | .len => s.len.setWidth 64
  | .key i => s.key.get i
  | .l => s.l
  | .r => s.r
  | .rk i => s.rk.get i
  | .reserved => 0

/-- What `WR` does to a register other than `CMD` (R191): `STATUS`, `RK` and reserved numbers ignore the write, `CTRL` and
`LEN` drop the upper bits, a `KEY` write clears `RKV`.  `CMD` stores nothing (R27); the command it runs is `issue`, in
Transact.lean. -/
def writeReg (s : State) (v : Word) : Reg → State
  | .ctrl => { s with diag := v.getLsbD 0 }
  | .status => s
  | .cmd => s
  | .len => { s with len := v.setWidth 32 }
  | .key i => { s with key := s.key.set i v, rkv := false }
  | .l => { s with l := v }
  | .r => { s with r := v }
  | .rk _ => s
  | .reserved => s

/-- `RESET`: every piece of the core's state to its reset value (R230, R45).  The host's side stays: bytes already put to
OUT have been put (R230), and bytes not yet taken from IN belong to the host (R20; DEDUCED, notes/assumptions/3.md). -/
def applyReset (s : State) : State :=
  { State.reset with host := s.host, inp := s.inp, out := s.out, rdata := s.rdata }

end Sys2Proof.Machine
end

