-- ==== Sys2Proof/Machine/Datapath.lean ====
section
/-! DEFINITION. The datapath: the two rotators (40_word_ops.md), the round function forward and inverse
(41_round_function.md) and the block cipher (43_block_cipher.md). -/

namespace Sys2Proof.Machine

/-- `ROR64(x, r)` (R100). -/
def ror64 (x : Word) (r : RotAmount) : Word := (x >>> r.val) ||| (x <<< (64 - r.val))

/-- `ROL64(x, r)` (R101). -/
def rol64 (x : Word) (r : RotAmount) : Word := (x <<< r.val) ||| (x >>> (64 - r.val))

/-- `RoundFwd(l, r, k)`: the new right word uses the new left word (R120). -/
def roundFwd (b : Block) (k : Word) : Block :=
  let l' := (ror64 b.left Config.rorAmt + b.right) ^^^ k
  ⟨l', rol64 b.right Config.rolAmt ^^^ l'⟩

/-- `RoundInv(l', r', k)`: the subtraction is inside the rotation (R124; 90_conflicts.md C2). -/
def roundInv (b : Block) (k : Word) : Block :=
  let r := ror64 (b.right ^^^ b.left) Config.rolAmt
  ⟨rol64 ((b.left ^^^ k) - r) Config.rorAmt, r⟩

/-- `EncryptBlock(l, r, rk)`: 27 forward rounds, index 0 to 26 (R150). -/
def encryptBlock (rk : RoundKeys) (b : Block) : Block := rk.toList.foldl roundFwd b

/-- `DecryptBlock(l, r, rk)`: 27 inverse rounds, index 26 down to 0 (R151). -/
def decryptBlock (rk : RoundKeys) (b : Block) : Block := rk.toList.reverse.foldl roundInv b

/-- One pass of the encrypt rounds: `(L, R) <- RoundFwd(L, R, RK[RND])`, then `RND` steps up, not past 26 (R155, R172). -/
def roundFwdStep (s : State) : State :=
  { s.withBlock (roundFwd s.block (s.rk.get s.rnd)) with
    rnd := if h : s.rnd.val < 26 then ⟨s.rnd.val + 1, by omega⟩ else s.rnd }

/-- One pass of the decrypt rounds: `(L, R) <- RoundInv(L, R, RK[RND])`, then `RND` steps down, not below 0 (R155, R172). -/
def roundInvStep (s : State) : State :=
  { s.withBlock (roundInv s.block (s.rk.get s.rnd)) with rnd := ⟨s.rnd.val - 1, by omega⟩ }

/-- The encrypt block transform on `(L, R)`: `RND` from 0, 27 rounds (R155, R172 EC_ROUNDS). -/
def encryptRounds (s : State) : State := roundFwdStep^[Config.rounds] { s with rnd := 0 }

/-- The decrypt block transform on `(L, R)`: `RND` from 26, 27 rounds (R155, R172 EC_ROUNDS). -/
def decryptRounds (s : State) : State := roundInvStep^[Config.rounds] { s with rnd := 26 }

end Sys2Proof.Machine
end

