-- ==== Sys2Proof/Machine/BlockCommands.lean ====
section
/-! DEFINITION. The commands that run the block cipher on `(L, R)`: ENCB and DECB (43_block_cipher.md). -/

namespace Sys2Proof.Machine

/-- ENCB: `(L, R) <- EncryptBlock(L, R, RK)` by the block transform of R155 (R153). -/
def execEncb (s : State) : Result :=
  whenDiag s <| whenSchedule s <| succeed (encryptRounds s)

/-- DECB: `(L, R) <- DecryptBlock(L, R, RK)` by the block transform of R155 (R154). -/
def execDecb (s : State) : Result :=
  whenDiag s <| whenSchedule s <| succeed (decryptRounds s)

end Sys2Proof.Machine
end

