-- ==== Sys2Proof/Machine/KeySchedule.lean ====
section
/-! DEFINITION. The key schedule: the function (42_key_schedule.md rule R135) and the state machine that runs it (R138).
KEYEXP runs the state machine; that it computes the function is a statement for the provers. -/

namespace Sys2Proof.Machine

/-- The recurrence's variables: the 3-slot buffer `a` and `b` (R135). -/
structure Schedule where
  a : Vector Word 3
  b : Word
deriving DecidableEq, Repr

/-- The load: `b <- k0`, `a <- [k1, k2, k3]` (R135). -/
def scheduleLoad (k : Key) : Schedule := ⟨#v[k[1], k[2], k[3]], k[0]⟩

/-- Iteration `i`: the second assignment reads the slot the first wrote and the old `b`; the mask is the integer `i`
itself (R135, R109). -/
def scheduleIter (i : Nat) (v : Schedule) : Schedule :=
  let s : Fin 3 := ⟨i % 3, Nat.mod_lt _ (by decide)⟩
  let x := (ror64 (v.a.get s) Config.rorAmt + v.b) ^^^ BitVec.ofNat 64 i
  ⟨v.a.set s x, rol64 v.b Config.rolAmt ^^^ x⟩

/-- The variables after `n` iterations, 0 to n - 1 in this order. -/
def scheduleAfter (k : Key) : Nat → Schedule
  | 0 => scheduleLoad k
  | n + 1 => scheduleIter n (scheduleAfter k n)

/-- `KeySchedule(k0, k1, k2, k3)`: `rk[0]` is `b` at the load and `rk[i+1]` is `b` after iteration `i` (R135). -/
def keySchedule (k : Key) : RoundKeys := Vector.ofFn fun i => (scheduleAfter k i.val).b

/-- KS_LOAD (R138). -/
def ksLoad (s : State) : State :=
  { s with
    ksB := s.key[0]
    ksA := #v[s.key[1], s.key[2], s.key[3]]
    ksI := 0
    rk := s.rk.set 0 s.key[0] }

/-- KS_STEP: one forward round with the counter in the place of the subkey (R136, R138).  The machine is in this state
only while `KS_I` <= 25. -/
def ksStep (s : State) : State :=
  if h : s.ksI.val ≤ 25 then
    let slot : Fin 3 := ⟨s.ksI.val % 3, Nat.mod_lt _ (by decide)⟩
    let b := roundFwd ⟨s.ksA.get slot, s.ksB⟩ (BitVec.ofNat 64 s.ksI.val)
    { s with
      ksA := s.ksA.set slot b.left
      ksB := b.right
      rk := s.rk.set (s.ksI.val + 1) b.right (by omega)
      ksI := ⟨s.ksI.val + 1, by omega⟩ }
  else s

/-- KS_LOAD, KS_STEP 26 times, and the `RKV` write of KS_DONE (R138). -/
def ksRun (s : State) : State := { ksStep^[26] (ksLoad s) with rkv := true }

end Sys2Proof.Machine
end

