-- ==== Sys2Proof/Machine/KeyCommands.lean ====
section
/-! DEFINITION. The command that expands the key: KEYEXP (42_key_schedule.md). -/

namespace Sys2Proof.Machine

/-- KEYEXP: the key-schedule state machine; it exists in both modes and needs no schedule (R137, R138). -/
def execKeyexp (s : State) : Result := succeed (ksRun s)

end Sys2Proof.Machine
end

