-- ==== Sys2Proof/Machine/RoundCommands.lean ====
section
/-! DEFINITION. The commands that run one round on `(L, R)`: RNDF and RNDI (41_round_function.md). -/

namespace Sys2Proof.Machine

/-- RNDF i: `(L, R) <- RoundFwd(L, R, RK[i])` (R127). -/
def execRndf (i : Nat) (s : State) : Result :=
  whenDiag s <| withRoundIndex i s fun j => whenSchedule s <|
    succeed (s.withBlock (roundFwd s.block (s.rk.get j)))

/-- RNDI i: `(L, R) <- RoundInv(L, R, RK[i])` (R128). -/
def execRndi (i : Nat) (s : State) : Result :=
  whenDiag s <| withRoundIndex i s fun j => whenSchedule s <|
    succeed (s.withBlock (roundInv s.block (s.rk.get j)))

end Sys2Proof.Machine
end

