-- ==== Sys2Proof/Machine/Ecb.lean ====
section
/-! DEFINITION. The ECB driver: padding and the ECB functions on byte sequences (44_ecb_driver.md rules R160 to R164), and the
controller that runs them window by window through `BUF`, `L` and `R` (R172).  ENCT and DECT run the controller; that it
computes the functions is a statement for the provers. -/

namespace Sys2Proof.Machine

/-- `PadLen(n)` (R160). -/
def padLen (n : Nat) : Nat := n + (16 - n % 16) % 16

/-- `Pad(p)`: 0 to 15 bytes 0x20 at the end (R161). -/
def pad (p : List Byte) : List Byte := p ++ List.replicate (padLen p.length - p.length) Config.padByte

/-- The first `m` windows of 16 bytes: consecutive, not overlapping (R57). -/
def windows : Nat → List Byte → List (List Byte)
  | 0, _ => []
  | m + 1, q => q.take Config.blockBytes :: windows m (q.drop Config.blockBytes)

/-- Each window decoded, transformed and encoded, in window order (R163, R164). -/
def ecbMap (f : Block → Block) (q : List Byte) : List Byte :=
  (windows (q.length / Config.blockBytes) q).flatMap fun w => bytesOfBlock (f (blockOfBytes w))

/-- `EcbEncrypt(p, rk)` (R163). -/
def ecbEncrypt (rk : RoundKeys) (p : List Byte) : List Byte := ecbMap (encryptBlock rk) (pad p)

/-- `EcbDecrypt(c, rk)`, for a length that is a multiple of 16 (R164). -/
def ecbDecrypt (rk : RoundKeys) (c : List Byte) : List Byte := ecbMap (decryptBlock rk) c

/-- EC_START: `BLK <- 0`, `CNT <- 0` (R172). -/
def ecStart (s : State) : State := { s with blk := 0, cnt := 0 }

/-- EC_FILL for a text of `n` bytes, from `CNT` = 0 to `CNT` = 16: the positions `16 * BLK + CNT` below `n` come from IN,
the others are padding (R172). -/
def ecFill (n : Nat) (s : State) : State :=
  let taken := min Config.blockBytes (n - Config.blockBytes * s.blk.toNat)
  { s with
    buf := Memory.writeBytes s.buf 0
      (s.inp.take taken ++ List.replicate (Config.blockBytes - taken) Config.padByte)
    inp := s.inp.drop taken
    cnt := 16 }

/-- EC_LOAD: `(L, R) <- (MemRead(0, 8), MemRead(8, 8))` (R172, R175). -/
def ecLoad (s : State) : State := { s with l := memRead s.buf 0, r := memRead s.buf 8 }

/-- EC_ROUNDS (R172); `enc` is true for ENCT, false for DECT. -/
def ecRounds (enc : Bool) (s : State) : State := if enc then encryptRounds s else decryptRounds s

/-- EC_STORE: `MemWrite(0, 8, L); MemWrite(8, 8, R)` (R172, R176). -/
def ecStore (s : State) : State := { s with buf := memWrite (memWrite s.buf 0 s.l) 8 s.r }

/-- `OutPut(BUF[0..15])` (R172, R176). -/
def putBuf (s : State) : State := { s with out := s.out ++ Memory.readBytes s.buf 0 Config.blockBytes }

/-- EC_DRAIN: the 16 bytes to OUT, `CNT <- 0`, `BLK <- BLK + 1` (R172). -/
def ecDrain (s : State) : State := { putBuf s with cnt := 0, blk := s.blk + 1 }

/-- One window: EC_FILL, EC_LOAD, EC_ROUNDS, EC_STORE, EC_DRAIN (R172). -/
def ecWindow (enc : Bool) (n : Nat) (s : State) : State :=
  ecDrain (ecStore (ecRounds enc (ecLoad (ecFill n s))))

/-- The number of bytes put out for a text of `n` bytes (R172 EC_START `total`). -/
def ecTotal (enc : Bool) (n : Nat) : Nat := if enc then padLen n else n

/-- The controller on a text of `LEN` bytes: a window while `16 * BLK < total`, which is `total / 16` times, `total` being a
multiple of 16 (R172). -/
def ecRun (enc : Bool) (s : State) : State :=
  (ecWindow enc (textLen s))^[ecTotal enc (textLen s) / Config.blockBytes] (ecStart s)

end Sys2Proof.Machine
end

