-- ==== Sys2Proof/Machine/TextCommands.lean ====
section
/-! DEFINITION. The text commands and the block load and store: ENCT, DECT, LDBLK and STBLK (44_ecb_driver.md). -/

namespace Sys2Proof.Machine

/-- ENCT: the ECB controller on `LEN` bytes of IN; every length is accepted (R165, R172). -/
def execEnct (s : State) : Result :=
  whenSchedule s <| whenInput (textLen s) s <| succeed (ecRun true s)

/-- DECT: the ECB controller on `LEN` bytes of IN; the length is tested before anything is taken (R170 to R172). -/
def execDect (s : State) : Result :=
  whenSchedule s <| whenWholeWindows s <| whenInput (textLen s) s <| succeed (ecRun false s)

/-- LDBLK: `CNT <- 0`, 16 bytes of IN into `BUF`, then `(L, R)` from `BUF` (R175; `CNT` stays 0: DESIGN CHOICE,
notes/assumptions/8.md). -/
def execLdblk (s : State) : Result :=
  whenDiag s <| whenInput Config.blockBytes s <|
    succeed (ecLoad { s with
      cnt := 0
      buf := Memory.writeBytes s.buf 0 (s.inp.take Config.blockBytes)
      inp := s.inp.drop Config.blockBytes })

/-- STBLK: `CNT <- 0`, `(L, R)` into `BUF`, then `BUF` to OUT (R176). -/
def execStblk (s : State) : Result :=
  whenDiag s <| succeed (putBuf (ecStore { s with cnt := 0 }))

end Sys2Proof.Machine
end

