-- ==== Sys2Proof/Machine/WordCommands.lean ====
section
/-! DEFINITION. The commands that expose the rotators: ROR and ROL (40_word_ops.md). -/

namespace Sys2Proof.Machine

/-- ROR r: `L <- ROR64(L, r)` (R106). -/
def execRor (r : Nat) (s : State) : Result :=
  whenDiag s <| withRotAmount r s fun a => succeed { s with l := ror64 s.l a }

/-- ROL r: `L <- ROL64(L, r)` (R107). -/
def execRol (r : Nat) (s : State) : Result :=
  whenDiag s <| withRotAmount r s fun a => succeed { s with l := rol64 s.l a }

end Sys2Proof.Machine
end

