-- ==== Sys2Proof/Machine/Dispatch.lean ====
section
/-! DEFINITION. One arm per command (30_encoding.md rule R73). -/

namespace Sys2Proof.Machine

/-- What a decoded command does: steps 4 to 8 of R72. -/
def exec (i : Instr) (s : State) : Host.Outcome State Fault Refusal :=
  match i with
  | .keyexp => Sys2Proof.Machine.execKeyexp s
  | .enct => Sys2Proof.Machine.execEnct s
  | .dect => Sys2Proof.Machine.execDect s
  | .ror r => Sys2Proof.Machine.execRor r s
  | .rol r => Sys2Proof.Machine.execRol r s
  | .rndf k => Sys2Proof.Machine.execRndf k s
  | .rndi k => Sys2Proof.Machine.execRndi k s
  | .encb => Sys2Proof.Machine.execEncb s
  | .decb => Sys2Proof.Machine.execDecb s
  | .ldblk => Sys2Proof.Machine.execLdblk s
  | .stblk => Sys2Proof.Machine.execStblk s

end Sys2Proof.Machine
end

