-- ==== Sys2Proof/Machine/Transact.lean ====
section
/-! DEFINITION. What one action of the host does to the core: the transactions RD, WR and RESET (30_encoding.md rule R70,
45_register_access.md) and the host's moves on the IN stream (20_memory.md rule R55). -/

namespace Sys2Proof.Machine

/-- A `CMD` write: the command starts, the word is decoded, and the command runs or raises IllegalCommand (R27, R72). -/
def issue (w : Word) (s : State) : Result :=
  match decode w with
  | .ok i => exec i (startCommand s)
  | .error _ => raise .illegalCommand (startCommand s)

/-- `RD n`: the value goes to the host, and no state of the core changes (R190).  While `BUSY` = 1 only `STATUS` may be
read (R240). -/
def readAct (n : RegNum) (s : State) : Result :=
  if s.busy ∧ regOf n ≠ .status then .fault .accessWhileBusy
  else .next { s with rdata := s.rdata ++ [readReg s (regOf n)] }

/-- `WR n, v` (R191).  While `BUSY` = 1 nothing may be written (R240). -/
def writeAct (n : RegNum) (v : Word) (s : State) : Result :=
  if s.busy then .fault .accessWhileBusy
  else if regOf n = .cmd then issue v s
  else .next (writeReg s v (regOf n))

/-- One action of the host. -/
def act : HostAct → State → Result
  | .rd n, s => readAct n s
  | .wr n v, s => writeAct n v s
  | .reset, s => .next (applyReset s)
  | .present bytes, s => .next { s with inp := s.inp ++ bytes }
  | .withdraw, s => .next { s with inp := [] }

end Sys2Proof.Machine
end

