-- ==== Sys2Proof/Machine/Step.lean ====
section
/-! DEFINITION. One step: the core fetches nothing (10_state.md rule R24); it takes the host's next action, whole (00_scope.md
rule R8), or waits. -/

namespace Sys2Proof.Machine

/-- The host's next action, or, with none pending, the idle core waiting for one (R24, R45). -/
def step (s : State) : Host.Outcome State Fault Refusal :=
  match s.host with
  | [] => .next s
  | a :: rest => act a { s with host := rest }

/-- `s` with the command word `w` as the host's next action, a write to `CMD`, which is how a command reaches the core
(R27, R70). -/
def State.withFetchWord (s : State) (nbits w : Nat) : State :=
  { s with host := .wr cmdNum (BitVec.ofNat 64 (w % 2 ^ nbits)) :: s.host }

end Sys2Proof.Machine
end

