-- ==== Sys2Proof/Safety.lean ====
section
/-! DEFINITION. What claims about the machine are stated in terms of: the invariant of a command boundary, what a host can
see of a state, and which commands exist in which mode. -/

namespace Sys2Proof.Machine

/-- A result code the hardware writes: 0, 1, 3, 4 or 5 (R210, U8). -/
def codeWritten (c : BitVec 4) : Bool := c == 0 || c == 1 || c == 3 || c == 4 || c == 5

/-- The invariant of a command boundary: `BUSY` is 0 (R33); `ERR` is a code the hardware writes (R210); `BUF` is in canonical
form; and, while `RKV` = 1, `RK` is the schedule of the current `KEY` (R26). -/
abbrev State.Inv (s : State) : Prop :=
  s.busy = false ∧ codeWritten s.err = true ∧ Memory.wf s.buf = true ∧
    (s.rkv = true → s.rk = keySchedule s.key)

/-- A state with its hidden registers blanked: what is left is what a host can observe (R40). -/
def State.visible (s : State) : State :=
  { s with ksB := 0, ksA := Vector.replicate 3 0, ksI := 0, buf := [], cnt := 0, blk := 0, rnd := 0 }

/-- An answer with the hidden registers of its next state blanked. -/
def visibleResult : Result → Result
  | .next s => .next s.visible
  | .fault f => .fault f
  | .refused r => .refused r

/-- The commands that exist in diagnostic mode only (R221). -/
def needsDiag : Instr → Bool
  | .keyexp => false
  | .enct => false
  | .dect => false
  | .ror _ => true
  | .rol _ => true
  | .rndf _ => true
  | .rndi _ => true
  | .encb => true
  | .decb => true
  | .ldblk => true
  | .stblk => true

/-- The commands that fail without a valid schedule (R73 "needs RKV", R214). -/
def needsSchedule : Instr → Bool
  | .keyexp => false
  | .enct => true
  | .dect => true
  | .ror _ => false
  | .rol _ => false
  | .rndf _ => true
  | .rndi _ => true
  | .encb => true
  | .decb => true
  | .ldblk => false
  | .stblk => false

/-- The argument is one the command accepts (R74, R76). -/
def argLegal : Instr → Bool
  | .keyexp => true
  | .enct => true
  | .dect => true
  | .ror r => decide (1 ≤ r) && decide (r ≤ 63)
  | .rol r => decide (1 ≤ r) && decide (r ≤ 63)
  | .rndf i => decide (i ≤ 26)
  | .rndi i => decide (i ≤ 26)
  | .encb => true
  | .decb => true
  | .ldblk => true
  | .stblk => true

/-- The number of bytes a command takes from IN (R73). -/
def bytesTaken (s : State) : Instr → Nat
  | .keyexp => 0
  | .enct => s.len.toNat
  | .dect => s.len.toNat
  | .ror _ => 0
  | .rol _ => 0
  | .rndf _ => 0
  | .rndi _ => 0
  | .encb => 0
  | .decb => 0
  | .ldblk => 16
  | .stblk => 0

/-- The number of bytes a command puts to OUT (R73). -/
def bytesPut (s : State) : Instr → Nat
  | .keyexp => 0
  | .enct => padLen s.len.toNat
  | .dect => s.len.toNat
  | .ror _ => 0
  | .rol _ => 0
  | .rndf _ => 0
  | .rndi _ => 0
  | .encb => 0
  | .decb => 0
  | .ldblk => 0
  | .stblk => 16

/-- The first error of a command, in the order of R72 steps 4 to 7 and R217, or none. -/
def firstError (i : Instr) (s : State) : Option ErrKind :=
  if needsDiag i = true ∧ s.diag = false then some .illegalCommand
  else if argLegal i = false then some .badOperand
  else if needsSchedule i = true ∧ s.rkv = false then some .noSchedule
  else if i = .dect ∧ s.len.toNat % 16 ≠ 0 then some .invalidLength
  else none

/-- A `CMD` write of a word with opcode `opc` and a non-zero bit in 63:14, or with a non-zero `ARG` where the command takes
none, raises IllegalCommand and changes nothing else (R75, R211). -/
def MalformedWordsRaise (opc : Nat) (takesArg : Bool) (s : State) : Prop :=
  ∀ w : Word, w.toNat % 256 = opc → (w.toNat / 2 ^ 14 ≠ 0 ∨ (takesArg = false ∧ w.toNat / 256 % 64 ≠ 0)) →
    issue w s = .next { s with err := 3, busy := false }

/-- Decoded commands run one after another, stopping at the first that does not answer a next state. -/
def runCommands : List Instr → State → Result
  | [], s => .next s
  | i :: is, s =>
    match exec i s with
    | .next t => runCommands is t
    | .fault f => .fault f
    | .refused r => .refused r

end Sys2Proof.Machine
end

