-- ==== Sys2Proof/Certificates/Slice0/Obligations.lean ====
section
/-! DEFINITION. The statements for the provers.  Each docstring names the rules of spec/ it formalises. -/

open Sys2Proof Sys2Proof.Machine

/-! ### The command word -/

/-- Decoding an encoded well-formed command gives it back, every argument from 0 to 63 (R71, R73, R74). -/
def Obligations.DecodeOfEncodeIsSame : Prop :=
  ∀ i : Instr, wellFormed i = true → decode (encode i) = .ok i

/-- Every word that decodes is the encoding of exactly the command it decodes to, which is well formed: no command has two
words (R71, R73). -/
def Obligations.EncodeOfDecodeIsSame : Prop :=
  ∀ (w : Word) (i : Instr), decode w = .ok i → wellFormed i = true ∧ encode i = w

/-- The opcode map: a word encodes a command of a row exactly when `w and mask = match`, and the argument is bits 13:8
(R73, R74). -/
def Obligations.OpcodeMapRowsDecode : Prop :=
  ∀ w : Word,
    (decode w = .ok .keyexp ↔ w &&& 0xFFFFFFFFFFFFFFFF#64 = 0x0000000000000001#64) ∧
    (decode w = .ok .enct ↔ w &&& 0xFFFFFFFFFFFFFFFF#64 = 0x0000000000000002#64) ∧
    (decode w = .ok .dect ↔ w &&& 0xFFFFFFFFFFFFFFFF#64 = 0x0000000000000003#64) ∧
    (∀ r : Nat, decode w = .ok (.ror r) ↔
      w &&& 0xFFFFFFFFFFFFC0FF#64 = 0x0000000000000010#64 ∧ r = w.toNat / 256 % 64) ∧
    (∀ r : Nat, decode w = .ok (.rol r) ↔
      w &&& 0xFFFFFFFFFFFFC0FF#64 = 0x0000000000000011#64 ∧ r = w.toNat / 256 % 64) ∧
    (∀ k : Nat, decode w = .ok (.rndf k) ↔
      w &&& 0xFFFFFFFFFFFFC0FF#64 = 0x0000000000000012#64 ∧ k = w.toNat / 256 % 64) ∧
    (∀ k : Nat, decode w = .ok (.rndi k) ↔
      w &&& 0xFFFFFFFFFFFFC0FF#64 = 0x0000000000000013#64 ∧ k = w.toNat / 256 % 64) ∧
    (decode w = .ok .encb ↔ w &&& 0xFFFFFFFFFFFFFFFF#64 = 0x0000000000000014#64) ∧
    (decode w = .ok .decb ↔ w &&& 0xFFFFFFFFFFFFFFFF#64 = 0x0000000000000015#64) ∧
    (decode w = .ok .ldblk ↔ w &&& 0xFFFFFFFFFFFFFFFF#64 = 0x0000000000000016#64) ∧
    (decode w = .ok .stblk ↔ w &&& 0xFFFFFFFFFFFFFFFF#64 = 0x0000000000000017#64)

/-- A `CMD` write whose word matches no command sets `ERR` to 3 and changes nothing else (R211). -/
def Obligations.IllegalWordRaisesIllegalCommand : Prop :=
  ∀ (s : State) (w : Word) (rest : List HostAct), s.busy = false → s.host = .wr cmdNum w :: rest →
    (w.toNat / 2 ^ 14 ≠ 0 ∨
      w.toNat % 256 ∉ [0x01, 0x02, 0x03, 0x10, 0x11, 0x12, 0x13, 0x14, 0x15, 0x16, 0x17] ∨
      (w.toNat % 256 ∈ [0x01, 0x02, 0x03, 0x14, 0x15, 0x16, 0x17] ∧ w.toNat / 256 % 64 ≠ 0)) →
    step s = .next { s with host := rest, err := 3 }

/-- The three words R78 writes out, and one of each other row, decode to the commands they stand for. -/
def Obligations.SampleCommandWordsDecode : Prop :=
  decode 0x0000000000000810#64 = .ok (.ror 8) ∧ decode 0x0000000000001A13#64 = .ok (.rndi 26) ∧
  decode 0x0000000000000001#64 = .ok .keyexp ∧ decode 0x0000000000000002#64 = .ok .enct ∧
  decode 0x0000000000000003#64 = .ok .dect ∧ decode 0x0000000000000311#64 = .ok (.rol 3) ∧
  decode 0x0000000000001B12#64 = .ok (.rndf 27) ∧ decode 0x0000000000000014#64 = .ok .encb ∧
  decode 0x0000000000000015#64 = .ok .decb ∧ decode 0x0000000000000016#64 = .ok .ldblk ∧
  decode 0x0000000000000017#64 = .ok .stblk

/-! ### A step -/

/-- A step on a pending `CMD` write whose word decodes to `i` is `exec i`, the write taken off the host's queue and `BUSY`
set (R24, R27, R33; the queue of the host's actions is the model's, notes/assumptions/1.md). -/
def Obligations.StepRunsDecodedCommand : Prop :=
  ∀ (s : State) (w : Word) (i : Instr) (rest : List HostAct), s.busy = false → s.host = .wr cmdNum w :: rest →
    decode w = .ok i → step s = exec i { s with host := rest, busy := true }

/-- With no pending action of the host the core is idle and nothing changes (R24, R45; that such a step exists is the model's
choice, notes/assumptions/1.md). -/
def Obligations.StepIdleChangesNothing : Prop :=
  ∀ s : State, s.host = [] → step s = .next s

/-- While `BUSY` = 1 every write, and every read of a register other than `STATUS`, stops the machine by name; a read of
`STATUS` is answered (R240; the stop is the model's, notes/assumptions/5.md). -/
def Obligations.AccessWhileBusyStops : Prop :=
  ∀ (s : State) (rest : List HostAct), s.busy = true →
    (∀ (n : RegNum) (v : Word), s.host = .wr n v :: rest → step s = .fault .accessWhileBusy) ∧
    (∀ n : RegNum, s.host = .rd n :: rest → n ≠ 0x01#6 → step s = .fault .accessWhileBusy) ∧
    (s.host = .rd 0x01#6 :: rest →
      step s = .next { s with host := rest, rdata := s.rdata ++ [BitVec.ofNat 64 (16 * s.err.toNat + 2 * s.rkv.toNat + 1)] })

/-! ### The datapath -/

/-- Both rotations as shifts, bit by bit, and as the two parts of the word exchanged (R100, R101). -/
def Obligations.RotationsMoveEveryBit : Prop :=
  ∀ (x : Word) (r : RotAmount),
    ror64 x r = (x >>> r.val) ||| (x <<< (64 - r.val)) ∧
    (∀ j : Nat, j < 64 → (ror64 x r).getLsbD j = x.getLsbD ((j + r.val) % 64)) ∧
    (ror64 x r).toNat = x.toNat % 2 ^ r.val * 2 ^ (64 - r.val) + x.toNat / 2 ^ r.val ∧
    rol64 x r = (x <<< r.val) ||| (x >>> (64 - r.val)) ∧
    (∀ j : Nat, j < 64 → (rol64 x r).getLsbD j = x.getLsbD ((j + (64 - r.val)) % 64)) ∧
    (rol64 x r).toNat = x.toNat % 2 ^ (64 - r.val) * 2 ^ r.val + x.toNat / 2 ^ (64 - r.val)

/-- The equations of R105. -/
def Obligations.RotationLaws : Prop :=
  ∀ (x y : Word) (r : RotAmount),
    rol64 x r = ror64 x ⟨64 - r.val, Nat.sub_pos_of_lt (Nat.lt_succ_of_le r.le63), Nat.sub_le_sub_left r.pos 64⟩ ∧
    rol64 (ror64 x r) r = x ∧ ror64 (rol64 x r) r = x ∧
    ror64 0 r = 0 ∧ ror64 (BitVec.allOnes 64) r = BitVec.allOnes 64 ∧
    ror64 (x ^^^ y) r = ror64 x r ^^^ ror64 y r ∧
    (∀ a b c : RotAmount, a.val + b.val = c.val →
      ror64 (ror64 x a) b = ror64 x c ∧ rol64 (rol64 x a) b = rol64 x c)

/-- The two lines of the forward round and of the inverse round, the addition and the subtraction in integers (R120, R124,
R103). -/
def Obligations.RoundLinesInIntegers : Prop :=
  ∀ (l r k : Word) (r8 r3 : RotAmount), r8.val = 8 → r3.val = 3 →
    (let b := roundFwd ⟨l, r⟩ k
     b.left = BitVec.ofNat 64 (((ror64 l r8).toNat + r.toNat) % 2 ^ 64) ^^^ k ∧
     b.right = rol64 r r3 ^^^ b.left) ∧
    (let b := roundInv ⟨l, r⟩ k
     b.right = ror64 (r ^^^ l) r3 ∧
     b.left = rol64 (BitVec.ofNat 64 ((2 ^ 64 + (l ^^^ k).toNat - b.right.toNat) % 2 ^ 64)) r8)

/-- The inverse round undoes the forward round, and the forward round the inverse, for every Block and every Word as the
subkey (R125). -/
def Obligations.RoundsInvertEachOther : Prop :=
  ∀ (b : Block) (k : Word), roundInv (roundFwd b k) k = b ∧ roundFwd (roundInv b k) k = b

/-- Decryption undoes encryption and encryption decryption, for every Block and any 27 Words (R152). -/
def Obligations.BlockTransformsInvertEachOther : Prop :=
  ∀ (b : Block) (rk : RoundKeys),
    decryptBlock rk (encryptBlock rk b) = b ∧ encryptBlock rk (decryptBlock rk b) = b

/-- The order of the rounds: the block after `i` forward rounds goes through round `i` next, and decryption takes the round
keys from 26 down (R150, R151). -/
def Obligations.BlockTransformsAreTheRoundsInOrder : Prop :=
  ∀ (b : Block) (rk : RoundKeys),
    (∃ x : Nat → Block, x 0 = b ∧ (∀ i : Fin 27, x (i.val + 1) = roundFwd (x i.val) (rk.get i)) ∧ encryptBlock rk b = x 27) ∧
    (∃ y : Nat → Block, y 27 = b ∧ (∀ i : Fin 27, y i.val = roundInv (y (i.val + 1)) (rk.get i)) ∧ decryptBlock rk b = y 0)

/-- The recurrence of the schedule: with `a` and `b` the variables before each iteration, each iteration is one forward round
with the counter as the subkey on slot `i mod 3`, and `rk[i]` is `b` before iteration `i` (R135, R136). -/
def Obligations.KeyScheduleIsTheRecurrence : Prop :=
  ∀ k : Key, ∃ (a : Nat → Nat → Word) (b : Nat → Word),
    b 0 = k[0] ∧ a 0 0 = k[1] ∧ a 0 1 = k[2] ∧ a 0 2 = k[3] ∧
    (∀ i : Nat, i < 26 →
      (let n := roundFwd ⟨a i (i % 3), b i⟩ (BitVec.ofNat 64 i)
       a (i + 1) (i % 3) = n.left ∧ b (i + 1) = n.right ∧
       ∀ s : Nat, s < 3 → s ≠ i % 3 → a (i + 1) s = a i s)) ∧
    (∀ i : Fin 27, (keySchedule k).get i = b i.val)

/-- The key words' first influence and the zero key's first round keys (R140; its last two sentences). -/
def Obligations.KeyScheduleFirstEntries : Prop :=
  (∀ k : Key, (keySchedule k).get 0 = k[0]) ∧
  (∀ k k' : Key, k[0] = k'[0] → k[1] = k'[1] → (keySchedule k).get 1 = (keySchedule k').get 1) ∧
  (∀ k k' : Key, k[0] = k'[0] → k[1] = k'[1] → k[2] = k'[2] → (keySchedule k).get 2 = (keySchedule k').get 2) ∧
  (∀ k k' : Key, k[0] = k'[0] → k[1] ≠ k'[1] → (keySchedule k).get 1 ≠ (keySchedule k').get 1) ∧
  (∀ k k' : Key, k[0] = k'[0] → k[1] = k'[1] → k[2] ≠ k'[2] → (keySchedule k).get 2 ≠ (keySchedule k').get 2) ∧
  (∀ k k' : Key, k[0] = k'[0] → k[1] = k'[1] → k[2] = k'[2] → k[3] ≠ k'[3] →
    (keySchedule k).get 3 ≠ (keySchedule k').get 3) ∧
  (keySchedule (Vector.replicate 4 0)).toList.take 5 = [0, 0, 1, 0xB, 0x50]

/-! ### The byte codec and padding -/

/-- The codec: the sums of R52, the bytes of R53, and each undoes the other (R52, R53, R54). -/
def Obligations.ByteCodecIsLittleEndianAndSymmetric : Prop :=
  (∀ b : List Byte, b.length = 16 →
    (blockOfBytes b).left.toNat = ((List.range 8).map fun j => (b.getD j 0).toNat * 2 ^ (8 * j)).sum ∧
    (blockOfBytes b).right.toNat = ((List.range 8).map fun j => (b.getD (8 + j) 0).toNat * 2 ^ (8 * j)).sum ∧
    bytesOfBlock (blockOfBytes b) = b) ∧
  (∀ x : Block,
    (bytesOfBlock x).length = 16 ∧
    (∀ j : Nat, j < 8 → (bytesOfBlock x).getD j 0 = x.left.extractLsb' (8 * j) 8 ∧
      (bytesOfBlock x).getD (8 + j) 0 = x.right.extractLsb' (8 * j) 8) ∧
    blockOfBytes (bytesOfBlock x) = x)

/-- `PadLen` and `Pad`: the next multiple of 16, at most 15 bytes 0x20, all at the end (R160, R161). -/
def Obligations.PaddingFillsTheLastWindow : Prop :=
  (∀ n : Nat, padLen n = n + (16 - n % 16) % 16 ∧ padLen n % 16 = 0 ∧ n ≤ padLen n ∧ padLen n - n ≤ 15 ∧
    (n % 16 = 0 → padLen n = n) ∧ (0 < n → 0 < padLen n)) ∧
  (∀ p : List Byte, pad p = p ++ List.replicate (padLen p.length - p.length) 0x20#8 ∧ (pad p).length = padLen p.length)

/-- The boundary values of R162. -/
def Obligations.PadLenBoundaryValues : Prop :=
  padLen 0 = 0 ∧ padLen 1 = 16 ∧ padLen 15 = 16 ∧ padLen 16 = 16 ∧ padLen 17 = 32 ∧ padLen 31 = 32 ∧ padLen 32 = 32 ∧
    padLen 33 = 48 ∧ padLen (2 ^ 32 - 1) = 2 ^ 32

/-! ### ECB -/

/-- Window `j` of the output is the transform of window `j` of the padded (or given) input, whatever the other windows are
(R163, R164, R166). -/
def Obligations.EcbWindowsAreIndependent : Prop :=
  ∀ (rk : RoundKeys) (p : List Byte),
    (ecbEncrypt rk p).length = padLen p.length ∧
    (∀ j : Nat, 16 * j < padLen p.length →
      ((ecbEncrypt rk p).drop (16 * j)).take 16
        = bytesOfBlock (encryptBlock rk (blockOfBytes (((pad p).drop (16 * j)).take 16)))) ∧
    (p.length % 16 = 0 →
      (ecbDecrypt rk p).length = p.length ∧
      ∀ j : Nat, 16 * j < p.length →
        ((ecbDecrypt rk p).drop (16 * j)).take 16
          = bytesOfBlock (decryptBlock rk (blockOfBytes ((p.drop (16 * j)).take 16))))

/-- Decrypting an encrypted text gives the text with its padding (R167). -/
def Obligations.EcbRoundTripKeepsPadding : Prop :=
  ∀ (p : List Byte) (rk : RoundKeys), ecbDecrypt rk (ecbEncrypt rk p) = pad p

/-- A text may be split at any multiple of 16 and encrypted piece by piece (92_eei_decisions.md D29). -/
def Obligations.EcbEncryptSplitsAtWindows : Prop :=
  ∀ (p q : List Byte) (rk : RoundKeys), p.length % 16 = 0 → ecbEncrypt rk (p ++ q) = ecbEncrypt rk p ++ ecbEncrypt rk q

/-! ### The commands: what each answers, on every operand -/

/-- ROR (R106). -/
def Obligations.RorRotatesRight : Prop :=
  ∀ (s : State) (r : Nat), r ≤ 63 →
    encode (.ror r) = BitVec.ofNat 64 (0x10 + 256 * r) ∧
    MalformedWordsRaise 0x10 true s ∧
    (s.diag = false → exec (.ror r) s = .next { s with err := 3, busy := false }) ∧
    (s.diag = true → r = 0 → exec (.ror r) s = .next { s with err := 5, busy := false }) ∧
    (s.diag = true → ∀ (h : 1 ≤ r) (h' : r ≤ 63),
      exec (.ror r) s = .next { s with l := ror64 s.l ⟨r, h, h'⟩, err := 0, busy := false })

/-- ROL (R107). -/
def Obligations.RolRotatesLeft : Prop :=
  ∀ (s : State) (r : Nat), r ≤ 63 →
    encode (.rol r) = BitVec.ofNat 64 (0x11 + 256 * r) ∧
    MalformedWordsRaise 0x11 true s ∧
    (s.diag = false → exec (.rol r) s = .next { s with err := 3, busy := false }) ∧
    (s.diag = true → r = 0 → exec (.rol r) s = .next { s with err := 5, busy := false }) ∧
    (s.diag = true → ∀ (h : 1 ≤ r) (h' : r ≤ 63),
      exec (.rol r) s = .next { s with l := rol64 s.l ⟨r, h, h'⟩, err := 0, busy := false })

/-- RNDF (R127). -/
def Obligations.RndfRunsOneForwardRound : Prop :=
  ∀ (s : State) (i : Nat), i ≤ 63 →
    encode (.rndf i) = BitVec.ofNat 64 (0x12 + 256 * i) ∧
    MalformedWordsRaise 0x12 true s ∧
    (s.diag = false → exec (.rndf i) s = .next { s with err := 3, busy := false }) ∧
    (s.diag = true → 26 < i → exec (.rndf i) s = .next { s with err := 5, busy := false }) ∧
    (s.diag = true → i ≤ 26 → s.rkv = false → exec (.rndf i) s = .next { s with err := 4, busy := false }) ∧
    (s.diag = true → s.rkv = true → ∀ h : i < 27,
      exec (.rndf i) s = .next { s with
        l := (roundFwd ⟨s.l, s.r⟩ s.rk[i]).left
        r := (roundFwd ⟨s.l, s.r⟩ s.rk[i]).right
        err := 0
        busy := false })

/-- RNDI (R128). -/
def Obligations.RndiRunsOneInverseRound : Prop :=
  ∀ (s : State) (i : Nat), i ≤ 63 →
    encode (.rndi i) = BitVec.ofNat 64 (0x13 + 256 * i) ∧
    MalformedWordsRaise 0x13 true s ∧
    (s.diag = false → exec (.rndi i) s = .next { s with err := 3, busy := false }) ∧
    (s.diag = true → 26 < i → exec (.rndi i) s = .next { s with err := 5, busy := false }) ∧
    (s.diag = true → i ≤ 26 → s.rkv = false → exec (.rndi i) s = .next { s with err := 4, busy := false }) ∧
    (s.diag = true → s.rkv = true → ∀ h : i < 27,
      exec (.rndi i) s = .next { s with
        l := (roundInv ⟨s.l, s.r⟩ s.rk[i]).left
        r := (roundInv ⟨s.l, s.r⟩ s.rk[i]).right
        err := 0
        busy := false })

/-- KEYEXP: the key-schedule state machine writes exactly the schedule of `KEY`, in both modes and whatever `RKV` is, and
leaves its working registers as R41 says (R137, R138, R41). -/
def Obligations.KeyexpComputesTheSchedule : Prop :=
  ∀ s : State,
    encode .keyexp = 0x0000000000000001#64 ∧
    MalformedWordsRaise 0x01 false s ∧
    exec .keyexp s = .next { s with
      rk := keySchedule s.key
      rkv := true
      err := 0
      busy := false
      ksB := (keySchedule s.key).get 26
      ksI := 26
      ksA := (scheduleAfter s.key 26).a }

/-- A second KEYEXP under the same key changes nothing a host can see (R139). -/
def Obligations.KeyexpTwiceIsKeyexp : Prop :=
  ∀ s t : State, exec .keyexp s = .next t → exec .keyexp t = .next t

/-- ENCB, with `RND` as R155 leaves it (R153, R155). -/
def Obligations.EncbEncryptsTheBlock : Prop :=
  ∀ s : State,
    encode .encb = 0x0000000000000014#64 ∧
    MalformedWordsRaise 0x14 false s ∧
    (s.diag = false → exec .encb s = .next { s with err := 3, busy := false }) ∧
    (s.diag = true → s.rkv = false → exec .encb s = .next { s with err := 4, busy := false }) ∧
    (s.diag = true → s.rkv = true → exec .encb s = .next { s with
      l := (encryptBlock s.rk ⟨s.l, s.r⟩).left
      r := (encryptBlock s.rk ⟨s.l, s.r⟩).right
      rnd := 26
      err := 0
      busy := false })

/-- DECB, with `RND` as R155 leaves it (R154, R155). -/
def Obligations.DecbDecryptsTheBlock : Prop :=
  ∀ s : State,
    encode .decb = 0x0000000000000015#64 ∧
    MalformedWordsRaise 0x15 false s ∧
    (s.diag = false → exec .decb s = .next { s with err := 3, busy := false }) ∧
    (s.diag = true → s.rkv = false → exec .decb s = .next { s with err := 4, busy := false }) ∧
    (s.diag = true → s.rkv = true → exec .decb s = .next { s with
      l := (decryptBlock s.rk ⟨s.l, s.r⟩).left
      r := (decryptBlock s.rk ⟨s.l, s.r⟩).right
      rnd := 0
      err := 0
      busy := false })

/-- ENCT: the controller computes `EcbEncrypt` on the first `LEN` bytes of IN.  The last clause is everything a host can see
(R165, R173).  That it completes rests on the model's choice that OUT accepts every byte (PRESUMED, notes/assumptions/11.md, the
premise R242). -/
def Obligations.EnctEncryptsTheText : Prop :=
  ∀ s : State, Memory.wf s.buf = true →
    encode .enct = 0x0000000000000002#64 ∧
    MalformedWordsRaise 0x02 false s ∧
    (s.rkv = false → exec .enct s = .next { s with err := 4, busy := false }) ∧
    (s.rkv = true → s.len.toNat ≤ s.inp.length →
      let n := s.len.toNat
      let c := ecbEncrypt s.rk (s.inp.take n)
      let last := blockOfBytes (c.drop (c.length - 16))
      ∃ t : State, exec .enct s = .next t ∧
        t.visible = State.visible { s with
          inp := s.inp.drop n
          out := s.out ++ c
          l := if n = 0 then s.l else last.left
          r := if n = 0 then s.r else last.right
          err := 0
          busy := false })

/-- DECT: the length is tested first, and the controller computes `EcbDecrypt` on the first `LEN` bytes of IN.  The last
clause is everything a host can see (R170, R171, R173).  That it completes rests on the model's choice that OUT accepts every
byte (PRESUMED, notes/assumptions/11.md, the premise R242). -/
def Obligations.DectDecryptsTheText : Prop :=
  ∀ s : State, Memory.wf s.buf = true →
    encode .dect = 0x0000000000000003#64 ∧
    MalformedWordsRaise 0x03 false s ∧
    (s.rkv = false → exec .dect s = .next { s with err := 4, busy := false }) ∧
    (s.rkv = true → s.len.toNat % 16 ≠ 0 → exec .dect s = .next { s with err := 1, busy := false }) ∧
    (s.rkv = true → s.len.toNat % 16 = 0 → s.len.toNat ≤ s.inp.length →
      let n := s.len.toNat
      let d := ecbDecrypt s.rk (s.inp.take n)
      let last := blockOfBytes (d.drop (n - 16))
      ∃ t : State, exec .dect s = .next t ∧
        t.visible = State.visible { s with
          inp := s.inp.drop n
          out := s.out ++ d
          l := if n = 0 then s.l else last.left
          r := if n = 0 then s.r else last.right
          err := 0
          busy := false })

/-- The controller's working registers after a text command that succeeds: `BLK` counts the windows, `CNT` is 0, and, if there
was a window, `RND` is at its last value and `BUF` holds the last output window; the key-schedule registers are untouched
(R42, R155, R172). -/
def Obligations.TextCommandsLeaveTheController : Prop :=
  ∀ s t : State, Memory.wf s.buf = true → s.rkv = true → s.len.toNat ≤ s.inp.length →
    (exec .enct s = .next t →
      t.blk = BitVec.ofNat 29 (padLen s.len.toNat / 16) ∧ t.cnt = 0 ∧
      t.rnd = (if s.len.toNat = 0 then s.rnd else 26) ∧
      (∀ a : Nat, Memory.read t.buf a = if s.len.toNat = 0 then Memory.read s.buf a else (t.out.drop (t.out.length - 16)).getD a 0) ∧
      t.ksB = s.ksB ∧ t.ksA = s.ksA ∧ t.ksI = s.ksI) ∧
    (exec .dect s = .next t → s.len.toNat % 16 = 0 →
      t.blk = BitVec.ofNat 29 (s.len.toNat / 16) ∧ t.cnt = 0 ∧
      t.rnd = (if s.len.toNat = 0 then s.rnd else 0) ∧
      (∀ a : Nat, Memory.read t.buf a = if s.len.toNat = 0 then Memory.read s.buf a else (t.out.drop (t.out.length - 16)).getD a 0) ∧
      t.ksB = s.ksB ∧ t.ksA = s.ksA ∧ t.ksI = s.ksI)

/-- LDBLK: exactly 16 bytes of IN become `(L, R)`, through `BUF` (R175).  The clause `CNT` = 0 is the model's choice between R175
and the last paragraph of R172 (DESIGN CHOICE, notes/assumptions/8.md). -/
def Obligations.LdblkLoadsTheBlock : Prop :=
  ∀ s : State, Memory.wf s.buf = true →
    encode .ldblk = 0x0000000000000016#64 ∧
    MalformedWordsRaise 0x16 false s ∧
    (s.diag = false → exec .ldblk s = .next { s with err := 3, busy := false }) ∧
    (s.diag = true → 16 ≤ s.inp.length →
      let b := s.inp.take 16
      ∃ m : Memory, exec .ldblk s = .next { s with
          l := (blockOfBytes b).left
          r := (blockOfBytes b).right
          inp := s.inp.drop 16
          buf := m
          cnt := 0
          err := 0
          busy := false } ∧
        ∀ a : Nat, Memory.read m a = b.getD a 0)

/-- STBLK: `(L, R)` goes to OUT as 16 bytes, through `BUF` (R176).  The clause `CNT` = 0 is the model's choice (DESIGN CHOICE,
notes/assumptions/8.md), and that STBLK completes rests on its choice that OUT accepts every byte (PRESUMED,
notes/assumptions/11.md, the premise R242). -/
def Obligations.StblkStoresTheBlock : Prop :=
  ∀ s : State, Memory.wf s.buf = true →
    encode .stblk = 0x0000000000000017#64 ∧
    MalformedWordsRaise 0x17 false s ∧
    (s.diag = false → exec .stblk s = .next { s with err := 3, busy := false }) ∧
    (s.diag = true →
      let b := bytesOfBlock ⟨s.l, s.r⟩
      ∃ m : Memory, exec .stblk s = .next { s with
          out := s.out ++ b
          buf := m
          cnt := 0
          err := 0
          busy := false } ∧
        ∀ a : Nat, Memory.read m a = b.getD a 0)

/-! ### The commands together -/

/-- RNDF 0 to RNDF 26 in order answer what one ENCB answers, and RNDI 26 down to RNDI 0 what one DECB answers, but for the
hidden `RND` (R127, R128, R153, R154). -/
def Obligations.TwentySevenRoundsAreOneBlockCommand : Prop :=
  ∀ s : State, s.diag = true → s.rkv = true →
    visibleResult (runCommands ((List.range 27).map Instr.rndf) s) = visibleResult (exec .encb s) ∧
    visibleResult (runCommands ((List.range 27).reverse.map Instr.rndi) s) = visibleResult (exec .decb s) ∧
    ∃ t : State, runCommands ((List.range 27).map Instr.rndf) s = .next t

/-- Each of the pairs ROL r and ROR r (1 to 63), RNDF i and RNDI i (0 to 26), ENCB and DECB succeeds and restores `L` and `R`, in
both orders (R107, R128, R154). -/
def Obligations.InverseCommandsRestoreTheBlock : Prop :=
  ∀ (s : State) (r i : Nat), s.diag = true → s.rkv = true → 1 ≤ r → r ≤ 63 → i ≤ 26 →
    ∀ p ∈ [([Instr.rol r, Instr.ror r] : List Instr), [.ror r, .rol r], [.rndf i, .rndi i], [.rndi i, .rndf i],
      [.encb, .decb], [.decb, .encb]],
      ∃ t : State, runCommands p s = .next t ∧ t.l = s.l ∧ t.r = s.r ∧ t.err = 0

/-- LDBLK of 16 bytes followed by STBLK puts the same bytes to OUT (R176).  That STBLK completes rests on the model's choice that
OUT accepts every byte (PRESUMED, notes/assumptions/11.md). -/
def Obligations.LdblkThenStblkPutsTheBytesBack : Prop :=
  ∀ s : State, Memory.wf s.buf = true → s.diag = true → 16 ≤ s.inp.length →
    ∃ t : State, runCommands [.ldblk, .stblk] s = .next t ∧ t.out = s.out ++ s.inp.take 16 ∧ t.inp = s.inp.drop 16

/-- What DECT puts out for the bytes ENCT put out, under the same schedule and with `LEN` set to their number, is the text
with its padding (R167, R79).  That DECT completes rests on the model's choice that OUT accepts every byte (PRESUMED,
notes/assumptions/11.md, the premise R242). -/
def Obligations.DectOfEnctIsThePaddedText : Prop :=
  ∀ s t u : State, Memory.wf s.buf = true → s.rkv = true → s.len.toNat ≤ s.inp.length →
    padLen s.len.toNat < 2 ^ 32 → exec .enct s = .next t →
    Memory.wf u.buf = true → u.rkv = true → u.rk = s.rk → u.len.toNat = padLen s.len.toNat →
    u.inp = t.out.drop s.out.length →
    ∃ v : State, exec .dect u = .next v ∧ v.out = u.out ++ pad (s.inp.take s.len.toNat) ∧ v.inp = [] ∧ v.err = 0

/-! ### Errors -/

/-- One error a command, the first in the order mode, operand, schedule, length; it changes `ERR` and nothing else
(R217, R218; `BUSY` falls as the command ends, R33).  For an argument that no word holds, the error is the model's choice
(DESIGN CHOICE, notes/assumptions/10.md). -/
def Obligations.FirstErrorIsReportedAndChangesOnlyErr : Prop :=
  ∀ (i : Instr) (s : State) (e : ErrKind), firstError i s = some e →
    exec i s = .next { s with err := e.code, busy := false }

/-- A command with no error and with its bytes on IN succeeds (`BUF` in canonical form): `ERR` is 0, and it takes from IN and
puts to OUT exactly the number of bytes the opcode map gives (R55, R73, R249).  R249 gives completion under two premises: R241 is
the hypothesis on IN, and R242 is the model's choice that OUT accepts every byte (PRESUMED, unsafe, notes/assumptions/11.md). -/
def Obligations.CommandWithoutErrorSucceeds : Prop :=
  ∀ (i : Instr) (s : State), Memory.wf s.buf = true → firstError i s = none → bytesTaken s i ≤ s.inp.length →
    ∃ (t : State) (o : List Byte), exec i s = .next t ∧ t.err = 0 ∧ t.busy = false ∧
      t.inp = s.inp.drop (bytesTaken s i) ∧ t.out = s.out ++ o ∧ o.length = bytesPut s i

/-- A command with no error whose bytes the host does not present never completes: the step has no next state (R241; the
fault that stands for the hang is the model's, notes/assumptions/4.md).  Nothing else makes a command fault; that an OUT nobody
drains does not is the model's choice (PRESUMED, notes/assumptions/11.md). -/
def Obligations.StarvedCommandHasNoNextState : Prop :=
  ∀ (i : Instr) (s : State) (f : Fault),
    exec i s = .fault f ↔ f = .inputStarved ∧ firstError i s = none ∧ s.inp.length < bytesTaken s i

/-- The result codes: which each command can leave in `ERR` (R210, R213, R214, R215, R220; for an argument that no word holds the
model's choice, notes/assumptions/10.md). -/
def Obligations.ResultCodesPerCommand : Prop :=
  ∀ (i : Instr) (s t : State), exec i s = .next t →
    t.err ∈ [0#4, 1#4, 3#4, 4#4, 5#4] ∧
    (t.err = 1 → i = .dect ∧ s.len.toNat % 16 ≠ 0) ∧
    (t.err = 3 → needsDiag i = true ∧ s.diag = false) ∧
    (t.err = 4 → s.rkv = false ∧ (i ∈ [Instr.enct, .dect, .encb, .decb] ∨ ∃ k, i = .rndf k ∨ i = .rndi k)) ∧
    (t.err = 5 → ∃ k, (i = .ror k ∨ i = .rol k) ∧ ¬(1 ≤ k ∧ k ≤ 63) ∨ (i = .rndf k ∨ i = .rndi k) ∧ 26 < k)

/-- InvalidLength: raised by DECT exactly when it is otherwise acceptable and `LEN[3:0]` is not 0; no byte is taken or put
(R215). -/
def Obligations.InvalidLengthIsDectOnARaggedLength : Prop :=
  (∀ s : State, s.rkv = true → s.len.extractLsb' 0 4 ≠ 0 → exec .dect s = .next { s with err := 1, busy := false }) ∧
  (∀ (i : Instr) (s t : State), exec i s = .next t → t.err = 1 → i = .dect ∧ s.len.extractLsb' 0 4 ≠ 0)

/-- In normal mode the only commands that exist are KEYEXP, ENCT and DECT (R212, R221). -/
def Obligations.NormalModeHasThreeCommands : Prop :=
  ∀ (i : Instr) (s : State), s.diag = false →
    i = .keyexp ∨ i = .enct ∨ i = .dect ∨ exec i s = .next { s with err := 3, busy := false }

/-! ### What commands leave alone -/

/-- No command writes `CTRL`, `LEN` or `KEY`, and none but KEYEXP writes `RK` or `RKV`; the host's pending actions and the
values it has read are its own (R22, R23, R25, R28, R31, R141). -/
def Obligations.CommandsLeaveControlAndKey : Prop :=
  ∀ (i : Instr) (s t : State), exec i s = .next t →
    t.diag = s.diag ∧ t.len = s.len ∧ t.key = s.key ∧ t.host = s.host ∧ t.rdata = s.rdata ∧
    (i ≠ .keyexp → t.rk = s.rk ∧ t.rkv = s.rkv)

/-- The frame of the register-only commands: ROR and ROL change at most `L` and the result flags, RNDF and RNDI `L`, `R` and
the result flags, ENCB and DECB also `RND`; no stream, no byte of `BUF` and no other register changes (R106, R107, R127, R128,
R153, R154). -/
def Obligations.RegisterCommandsFrame : Prop :=
  ∀ (s t : State) (k : Nat),
    (∀ i ∈ [Instr.ror k, .rol k], exec i s = .next t →
      t = { s with l := t.l, err := t.err, busy := false } ∧ ∀ a : Nat, Memory.read t.buf a = Memory.read s.buf a) ∧
    (∀ i ∈ [Instr.rndf k, .rndi k], exec i s = .next t →
      t = { s with l := t.l, r := t.r, err := t.err, busy := false } ∧
      ∀ a : Nat, Memory.read t.buf a = Memory.read s.buf a) ∧
    (∀ i ∈ [Instr.encb, .decb], exec i s = .next t →
      t = { s with l := t.l, r := t.r, rnd := t.rnd, err := t.err, busy := false } ∧
      ∀ a : Nat, Memory.read t.buf a = Memory.read s.buf a)

/-- The frame of KEYEXP: `RK`, `RKV`, the result flags and the key-schedule registers, and nothing else; no byte of `BUF`
(R137). -/
def Obligations.KeyexpFrame : Prop :=
  ∀ s t : State, exec .keyexp s = .next t →
    t = { s with rk := t.rk, rkv := t.rkv, err := t.err, busy := false, ksB := t.ksB, ksA := t.ksA, ksI := t.ksI } ∧
    ∀ a : Nat, Memory.read t.buf a = Memory.read s.buf a

/-- The frame of the commands that move bytes: ENCT, DECT and LDBLK change at most `L`, `R`, the result flags, the streams and
the controller's registers (LDBLK no OUT byte), STBLK at most OUT, the result flags, `BUF` and `CNT`; of `BUF` only the offsets
0 to 15 they store to (R165, R170, R175, R176). -/
def Obligations.ByteCommandsFrame : Prop :=
  ∀ s t : State, Memory.wf s.buf = true →
    (∀ i ∈ [Instr.enct, .dect], exec i s = .next t →
      t = { s with l := t.l, r := t.r, err := t.err, busy := false, inp := t.inp, out := t.out,
                   buf := t.buf, cnt := t.cnt, blk := t.blk, rnd := t.rnd }) ∧
    (exec .ldblk s = .next t →
      t = { s with l := t.l, r := t.r, err := t.err, busy := false, inp := t.inp, buf := t.buf, cnt := t.cnt }) ∧
    (exec .stblk s = .next t →
      t = { s with err := t.err, busy := false, out := t.out, buf := t.buf, cnt := t.cnt }) ∧
    (∀ i ∈ [Instr.enct, .dect, .ldblk, .stblk], exec i s = .next t →
      ∀ a : Nat, 16 ≤ a → Memory.read t.buf a = Memory.read s.buf a)

/-- The hidden registers cannot be seen: two states that differ in them only give answers that differ in them only, for every
command (R40). -/
def Obligations.HiddenRegistersAreUnobservable : Prop :=
  ∀ (i : Instr) (s t : State), Memory.wf s.buf = true → Memory.wf t.buf = true → s.visible = t.visible →
    visibleResult (exec i s) = visibleResult (exec i t)

/-! ### The host's transactions -/

/-- `RD n`: the value of every register number, and nothing else changes (R190, R26, R30, R35). -/
def Obligations.ReadReturnsTheRegister : Prop :=
  ∀ (s : State) (n : RegNum) (rest : List HostAct), s.busy = false → s.host = .rd n :: rest →
    ∃ v : Word, step s = .next { s with host := rest, rdata := s.rdata ++ [v] } ∧
      (n.toNat = 0x00 → v = BitVec.ofNat 64 s.diag.toNat) ∧
      (n.toNat = 0x01 → v = BitVec.ofNat 64 (16 * s.err.toNat + 2 * s.rkv.toNat + s.busy.toNat)) ∧
      (n.toNat = 0x02 → v = 0) ∧
      (n.toNat = 0x03 → v = BitVec.ofNat 64 s.len.toNat) ∧
      (∀ i : Fin 4, n.toNat = 4 + i.val → v = s.key.get i) ∧
      (n.toNat = 0x08 → v = s.l) ∧
      (n.toNat = 0x09 → v = s.r) ∧
      (0x0A ≤ n.toNat → n.toNat ≤ 0x1F → v = 0) ∧
      (∀ i : Fin 27, n.toNat = 0x20 + i.val → v = s.rk.get i) ∧
      (0x3B ≤ n.toNat → v = 0)

/-- `WR n, v` for every register number: what is stored, what is dropped, what is ignored, and, for `CMD`, that the command
encoded by `v` runs (R191, R25, R27, R28, R30). -/
def Obligations.WriteStoresTheRegister : Prop :=
  ∀ (s : State) (n : RegNum) (v : Word) (rest : List HostAct), s.busy = false → s.host = .wr n v :: rest →
    (n.toNat = 0x00 → step s = .next { s with host := rest, diag := decide (v.toNat % 2 = 1) }) ∧
    (n.toNat = 0x02 → step s = issue v { s with host := rest }) ∧
    (n.toNat = 0x03 → step s = .next { s with host := rest, len := BitVec.ofNat 32 v.toNat }) ∧
    (∀ i : Fin 4, n.toNat = 4 + i.val → step s = .next { s with host := rest, key := s.key.set i v, rkv := false }) ∧
    (n.toNat = 0x08 → step s = .next { s with host := rest, l := v }) ∧
    (n.toNat = 0x09 → step s = .next { s with host := rest, r := v }) ∧
    (n.toNat = 0x01 ∨ 0x0A ≤ n.toNat → step s = .next { s with host := rest })

/-- RESET: every piece of the core's state is zero, in normal mode, idle (R230, R45). -/
def Obligations.ResetZeroesTheCore : Prop :=
  ∀ (s : State) (rest : List HostAct), s.host = .reset :: rest →
    ∃ t : State, step s = .next t ∧
      t.diag = false ∧ t.busy = false ∧ t.rkv = false ∧ t.err = 0 ∧ t.len = 0 ∧ (∀ i, t.key.get i = 0) ∧
      (∀ i, t.rk.get i = 0) ∧ t.l = 0 ∧ t.r = 0 ∧ t.ksB = 0 ∧ (∀ i, t.ksA.get i = 0) ∧ t.ksI = 0 ∧
      (∀ a, Memory.read t.buf a = 0) ∧ t.cnt = 0 ∧ t.blk = 0 ∧ t.rnd = 0

/-- After a RESET the host's side is as before: bytes already put to OUT have been put (R230); that IN and the values read
stay too is the model's reading (R20, notes/assumptions/3.md). -/
def Obligations.ResetKeepsTheStreams : Prop :=
  ∀ (s : State) (rest : List HostAct), s.host = .reset :: rest →
    ∃ t : State, step s = .next t ∧ t.out = s.out ∧ t.inp = s.inp ∧ t.rdata = s.rdata ∧ t.host = rest

/-! ### Rules about the whole machine -/

/-- `RKV` is written by RESET (0), by KEYEXP (1, with `RK`) and by a write to register 4 to 7 (0), and by nothing else
(R31). -/
def Obligations.RkvChangesOnlyByResetKeyexpOrKeyWrite : Prop :=
  ∀ s t : State, step s = .next t →
    (∀ rest, s.host = .reset :: rest → t.rkv = false) ∧
    (∀ w rest, s.host = .wr cmdNum w :: rest → decode w = .ok .keyexp → t.rkv = true ∧ t.rk = keySchedule s.key) ∧
    (∀ n v rest, s.host = .wr n v :: rest → 4 ≤ n.toNat → n.toNat ≤ 7 → t.rkv = false) ∧
    (t.rkv ≠ s.rkv →
      (∃ rest, s.host = .reset :: rest) ∨
      (∃ w rest, s.host = .wr cmdNum w :: rest ∧ decode w = .ok .keyexp) ∨
      (∃ n v rest, s.host = .wr n v :: rest ∧ 4 ≤ n.toNat ∧ n.toNat ≤ 7))

/-- `RK` is written by KEYEXP, and zeroed by RESET, and by nothing else (R23, R230). -/
def Obligations.RoundKeysChangeOnlyByKeyexpOrReset : Prop :=
  ∀ s t : State, step s = .next t → t.rk ≠ s.rk →
    (∃ rest, s.host = .reset :: rest) ∨ (∃ w rest, s.host = .wr cmdNum w :: rest ∧ decode w = .ok .keyexp)

/-- `ERR` is written by every write to `CMD` and by RESET, and by nothing else (R32). -/
def Obligations.ErrIsWrittenByCommandsAndReset : Prop :=
  ∀ s t : State, step s = .next t →
    (∀ rest, s.host = .reset :: rest → t.err = 0) ∧
    (∀ w rest, s.host = .wr cmdNum w :: rest →
      t.err = (match decode w with
        | .error _ => 3
        | .ok i => match firstError i s with
          | some e => e.code
          | none => 0)) ∧
    (t.err ≠ s.err → (∃ rest, s.host = .reset :: rest) ∨ (∃ w rest, s.host = .wr cmdNum w :: rest))

/-- After a write to `KEY` no text command runs until a KEYEXP: ENCT and DECT raise NoSchedule and take nothing (R31, R214). -/
def Obligations.KeyWriteEndsTheSession : Prop :=
  ∀ (s : State) (n : RegNum) (v : Word) (rest : List HostAct), s.busy = false → s.host = .wr n v :: rest →
    4 ≤ n.toNat → n.toNat ≤ 7 →
    ∃ t : State, step s = .next t ∧
      exec .enct t = .next { t with err := 4, busy := false } ∧
      exec .dect t = .next { t with err := 4, busy := false } ∧
      t.inp = s.inp ∧ t.out = s.out

/-- The invariant of a command boundary (`State.Inv`: idle, a written result code, `BUF` in canonical form, `RK` the schedule of
`KEY` while `RKV` = 1) is kept by every step from every state that has it (R26, R33, R210, R138; the canonical form of `BUF` is
the model's, notes/assumptions/9.md). -/
def Obligations.EveryStepKeepsTheInvariant : Prop :=
  ∀ s t : State, s.Inv → step s = .next t → t.Inv

/-- The state after reset has the invariant (R45; the canonical form of `BUF` is the model's, notes/assumptions/9.md). -/
def Obligations.ResetHasTheInvariant : Prop := State.reset.Inv
end

