-- ==== Sys2Proof/Laws/Memory.lean ====
section
/-! SUPPORT. The laws of the block buffer: a read after a write, and that every write keeps the canonical form. -/

namespace Sys2Proof.Machine

@[simp] theorem Memory.read_nil (a : Nat) : Memory.read [] a = 0#8 := rfl

/-- Below its first listed offset a canonical memory lists nothing. -/
theorem Memory.read_below {lo : Nat} {m : Memory} {a : Nat} (h : Memory.wfFrom lo m = true) (ha : a < lo) :
    Memory.read m a = 0#8 := by
  induction m generalizing lo with
  | nil => rfl
  | cons c rest ih =>
    obtain ⟨b, v⟩ := c
    simp only [Memory.wfFrom, Bool.and_eq_true, decide_eq_true_eq] at h
    have hb : a ≠ b := by have := h.1.1.1; omega
    simp only [Memory.read, hb, if_false]
    exact ih h.2 (by omega)

/-- A canonical memory lists no offset above 15. -/
theorem Memory.read_above {lo : Nat} {m : Memory} {a : Nat} (h : Memory.wfFrom lo m = true) (ha : 16 ≤ a) :
    Memory.read m a = 0#8 := by
  induction m generalizing lo with
  | nil => rfl
  | cons c rest ih =>
    obtain ⟨b, v⟩ := c
    simp only [Memory.wfFrom, Bool.and_eq_true, decide_eq_true_eq] at h
    have hb : a ≠ b := by have := h.1.1.2; omega
    simp only [Memory.read, hb, if_false]
    exact ih h.2

theorem Memory.wfFrom_mono {lo lo' : Nat} {m : Memory} (h : Memory.wfFrom lo m = true) (hl : lo' ≤ lo) :
    Memory.wfFrom lo' m = true := by
  cases m with
  | nil => rfl
  | cons c rest =>
    simp only [Memory.wfFrom, Bool.and_eq_true, decide_eq_true_eq] at h ⊢
    exact ⟨⟨⟨by omega, h.1.1.2⟩, h.1.2⟩, h.2⟩

theorem Memory.wfFrom_write {lo : Nat} {m : Memory} {a : Nat} {v : Byte} (h : Memory.wfFrom lo m = true)
    (hl : lo ≤ a) (ha : a < 16) : Memory.wfFrom lo (Memory.write m a v) = true := by
  induction m generalizing lo with
  | nil =>
    by_cases hv : v = 0#8 <;> simp [Memory.write, Memory.wfFrom, hv, hl, ha]
  | cons c rest ih =>
    obtain ⟨b, w⟩ := c
    simp only [Memory.wfFrom, Bool.and_eq_true, decide_eq_true_eq] at h
    obtain ⟨⟨⟨h1, h2⟩, h3⟩, h4⟩ := h
    unfold Memory.write
    split
    · split
      · simp [Memory.wfFrom, h1, h2, h3, h4]
      · rename_i hab hv
        have : a + 1 ≤ b := hab
        simp [Memory.wfFrom, h2, h3, h4, hl, ha, hv, this]
    · split
      · rename_i hab
        subst hab
        split
        · exact Memory.wfFrom_mono h4 (by omega)
        · rename_i hv
          simp [Memory.wfFrom, hl, ha, hv, h4]
      · have := ih h4 (by omega)
        simp [Memory.wfFrom, h1, h2, h3, this]

/-- Writing a byte of the block buffer keeps the canonical form. -/
theorem Memory.wf_write {m : Memory} {a : Nat} (v : Byte) (h : Memory.wf m = true) (ha : a < 16) :
    Memory.wf (Memory.write m a v) = true :=
  Memory.wfFrom_write h (Nat.zero_le a) ha

theorem Memory.read_write_from {lo : Nat} {m : Memory} (a b : Nat) (v : Byte) (h : Memory.wfFrom lo m = true) :
    Memory.read (Memory.write m a v) b = if b = a then v else Memory.read m b := by
  induction m generalizing lo with
  | nil =>
    by_cases hv : v = 0#8
    · subst hv; simp [Memory.write]
    · simp [Memory.write, Memory.read, hv]
  | cons c rest ih =>
    obtain ⟨d, w⟩ := c
    simp only [Memory.wfFrom, Bool.and_eq_true, decide_eq_true_eq] at h
    obtain ⟨_, h4⟩ := h
    unfold Memory.write
    split
    · rename_i hlt
      split
      · rename_i hv
        subst hv
        by_cases hb : b = a
        · subst hb
          have : b ≠ d := by omega
          simp only [Memory.read, this, if_false, if_true]
          exact Memory.read_below h4 (by omega)
        · simp [hb]
      · simp [Memory.read]
    · split
      · rename_i hab
        subst hab
        split
        · rename_i hv
          subst hv
          by_cases hb : b = a
          · subst hb
            simpa using Memory.read_below h4 (Nat.lt_succ_self b)
          · simp [hb, Memory.read]
        · by_cases hb : b = a <;> simp [hb, Memory.read]
      · rename_i hne
        by_cases hbd : b = d
        · subst hbd
          have : ¬ b = a := fun e => hne e.symm
          simp [Memory.read, this]
        · simp only [Memory.read, hbd, if_false]
          exact ih h4

/-- A byte read after a write: the byte written at its offset, and what was there everywhere else. -/
theorem Memory.read_write {m : Memory} (a b : Nat) (v : Byte) (h : Memory.wf m = true) :
    Memory.read (Memory.write m a v) b = if b = a then v else Memory.read m b :=
  Memory.read_write_from a b v h

/-- Writing bytes inside the block buffer keeps the canonical form. -/
theorem Memory.wf_writeBytes {m : Memory} {off : Nat} (vs : List Byte) (h : Memory.wf m = true)
    (hv : off + vs.length ≤ 16) : Memory.wf (Memory.writeBytes m off vs) = true := by
  induction vs generalizing m off with
  | nil => exact h
  | cons v vs ih =>
    simp only [List.length_cons] at hv
    exact ih (Memory.wf_write v h (by omega)) (by omega)

/-- A byte read after bytes were written inside the block buffer. -/
theorem Memory.read_writeBytes {m : Memory} {off : Nat} (vs : List Byte) (b : Nat) (h : Memory.wf m = true)
    (hv : off + vs.length ≤ 16) :
    Memory.read (Memory.writeBytes m off vs) b =
      if off ≤ b ∧ b < off + vs.length then vs.getD (b - off) 0#8 else Memory.read m b := by
  induction vs generalizing m off with
  | nil =>
    have : ¬ (off ≤ b ∧ b < off + 0) := by omega
    simp [Memory.writeBytes]
  | cons v vs ih =>
    simp only [List.length_cons] at hv ⊢
    rw [Memory.writeBytes, ih (Memory.wf_write v h (by omega)) (by omega), Memory.read_write _ _ _ h]
    by_cases h1 : b = off
    · subst h1
      have : ¬ (b + 1 ≤ b ∧ b < b + 1 + vs.length) := by omega
      have h2 : b ≤ b ∧ b < b + (vs.length + 1) := by omega
      rw [if_neg this, if_pos rfl, if_pos h2]
      simp
    · by_cases h2 : off ≤ b ∧ b < off + (vs.length + 1)
      · have h3 : off + 1 ≤ b ∧ b < off + 1 + vs.length := by omega
        rw [if_pos h3, if_pos h2]
        obtain ⟨k, rfl⟩ : ∃ k, b = off + 1 + k := ⟨b - (off + 1), by omega⟩
        have e1 : off + 1 + k - (off + 1) = k := by omega
        have e2 : off + 1 + k - off = k + 1 := by omega
        rw [e1, e2, List.getD_cons_succ]
      · have h3 : ¬ (off + 1 ≤ b ∧ b < off + 1 + vs.length) := by omega
        rw [if_neg h3, if_neg h1, if_neg h2]

@[simp] theorem Memory.length_readBytes (m : Memory) (off n : Nat) : (Memory.readBytes m off n).length = n := by
  simp [Memory.readBytes]

/-- Reading back all the bytes just written. -/
theorem Memory.readBytes_writeBytes {m : Memory} (vs : List Byte) (off n k : Nat) (h : Memory.wf m = true)
    (hv : off + vs.length ≤ 16) (hk : k + n ≤ vs.length) :
    Memory.readBytes (Memory.writeBytes m off vs) (off + k) n = (vs.drop k).take n := by
  apply List.ext_getElem
  · simp; omega
  · intro j h1 h2
    have hj : j < n := by simpa using h1
    have hb : off ≤ off + k + j ∧ off + k + j < off + vs.length := by omega
    simp only [Memory.readBytes, List.getElem_map, List.getElem_range]
    rw [Memory.read_writeBytes vs _ h hv, if_pos hb]
    have e : off + k + j - off = k + j := by omega
    rw [e]
    simp only [List.getElem_take, List.getElem_drop]
    rw [List.getD_eq_getElem _ _ (by omega)]

/-- Bytes read outside the bytes just written are those that were there. -/
theorem Memory.readBytes_writeBytes_before {m : Memory} (vs : List Byte) (off a n : Nat) (h : Memory.wf m = true)
    (hv : off + vs.length ≤ 16) (ha : a + n ≤ off) :
    Memory.readBytes (Memory.writeBytes m off vs) a n = Memory.readBytes m a n := by
  simp only [Memory.readBytes]
  apply List.map_congr_left
  intro j hj
  have hj : j < n := by simpa using hj
  rw [Memory.read_writeBytes vs _ h hv, if_neg (by omega)]

/-- Two canonical memories with the same bytes are the same data. -/
theorem Memory.ext_from {lo : Nat} {m m' : Memory} (h : Memory.wfFrom lo m = true) (h' : Memory.wfFrom lo m' = true)
    (hr : ∀ a : Nat, Memory.read m a = Memory.read m' a) : m = m' := by
  induction m generalizing lo m' with
  | nil =>
    cases m' with
    | nil => rfl
    | cons c rest =>
      obtain ⟨b, v⟩ := c
      simp only [Memory.wfFrom, Bool.and_eq_true, decide_eq_true_eq] at h'
      have := hr b
      simp only [Memory.read, if_true] at this
      exact absurd this.symm h'.1.2
  | cons c rest ih =>
    obtain ⟨b, v⟩ := c
    simp only [Memory.wfFrom, Bool.and_eq_true, decide_eq_true_eq] at h
    cases m' with
    | nil =>
      have := hr b
      simp only [Memory.read, if_true] at this
      exact absurd this h.1.2
    | cons c' rest' =>
      obtain ⟨b', v'⟩ := c'
      simp only [Memory.wfFrom, Bool.and_eq_true, decide_eq_true_eq] at h'
      have e : b = b' := by
        rcases Nat.lt_trichotomy b b' with hlt | heq | hgt
        · have := hr b
          have hn : b ≠ b' := by omega
          simp only [Memory.read, if_true, hn, if_false] at this
          rw [Memory.read_below h'.2 (by omega)] at this
          exact absurd this h.1.2
        · exact heq
        · have := hr b'
          have hn : b' ≠ b := by omega
          simp only [Memory.read, if_true, hn, if_false] at this
          rw [Memory.read_below h.2 (by omega)] at this
          exact absurd this.symm h'.1.2
      subst e
      have ev : v = v' := by simpa [Memory.read] using hr b
      subst ev
      congr 1
      refine ih h.2 h'.2 fun a => ?_
      by_cases ha : a = b
      · subst ha
        rw [Memory.read_below h.2 (Nat.lt_succ_self _), Memory.read_below h'.2 (Nat.lt_succ_self _)]
      · simpa [Memory.read, ha] using hr a

/-- Two canonical block buffers with the same bytes are the same data. -/
theorem Memory.ext {m m' : Memory} (h : Memory.wf m = true) (h' : Memory.wf m' = true)
    (hr : ∀ a : Nat, Memory.read m a = Memory.read m' a) : m = m' :=
  Memory.ext_from h h' hr

/-- Writing all 16 bytes leaves nothing of what was there. -/
theorem Memory.writeBytes_all {m m' : Memory} (vs : List Byte) (h : Memory.wf m = true) (h' : Memory.wf m' = true)
    (hv : vs.length = 16) : Memory.writeBytes m 0 vs = Memory.writeBytes m' 0 vs := by
  refine Memory.ext (Memory.wf_writeBytes vs h (by omega)) (Memory.wf_writeBytes vs h' (by omega)) fun a => ?_
  rw [Memory.read_writeBytes vs a h (by omega), Memory.read_writeBytes vs a h' (by omega)]
  split
  · rfl
  · rw [Memory.read_above h (by omega), Memory.read_above h' (by omega)]

end Sys2Proof.Machine
end

