-- ==== Sys2Proof/Laws/Codec.lean ====
section
/-! SUPPORT. The byte codec of Words, the block buffer seen as a Block, and the windows of a byte sequence. -/

namespace Sys2Proof.Machine

/-! ### Eight bytes and a Word -/

theorem leNat_lt (bs : List Byte) : leNat bs < 256 ^ bs.length := by
  induction bs with
  | nil => simp [leNat]
  | cons b bs ih =>
    have := b.isLt
    simp only [leNat, List.length_cons, Nat.pow_succ]
    omega

theorem leNat_lt_word {bs : List Byte} (h : bs.length = 8) : leNat bs < 2 ^ 64 := by
  have := leNat_lt bs
  rw [h] at this
  exact Nat.lt_of_lt_of_eq this (by decide)

theorem leWord_toNat {bs : List Byte} (h : bs.length = 8) : (leWord bs).toNat = leNat bs := by
  rw [leWord, BitVec.toNat_ofNat, Nat.mod_eq_of_lt (leNat_lt_word h)]

@[simp] theorem length_leBytes (v : Word) : (leBytes v).length = 8 := by simp [leBytes]

@[simp] theorem length_bytesOfBlock (b : Block) : (bytesOfBlock b).length = 16 := by simp [bytesOfBlock]

/-- The bytes of a number from byte `k` on: what `leNat` puts together again. -/
theorem leNat_bytesFrom (v : Word) (n k : Nat) :
    leNat ((List.range' k n).map fun j => v.extractLsb' (8 * j) 8) = v.toNat / 2 ^ (8 * k) % 2 ^ (8 * n) := by
  induction n generalizing k with
  | zero => simp [leNat, Nat.mod_one]
  | succ n ih =>
    rw [List.range'_succ, List.map_cons, leNat, ih]
    rw [BitVec.extractLsb'_toNat, Nat.shiftRight_eq_div_pow]
    have e1 : 2 ^ (8 * (k + 1)) = 2 ^ (8 * k) * 256 := by rw [Nat.mul_add, Nat.pow_add]
    have e2 : 2 ^ (8 * (n + 1)) = 256 * 2 ^ (8 * n) := by rw [Nat.mul_add, Nat.pow_add, Nat.mul_comm]
    rw [e1, e2, ← Nat.div_div_eq_div_mul, Nat.mod_mul]

/-- A Word is its eight bytes. -/
@[simp] theorem leWord_leBytes (v : Word) : leWord (leBytes v) = v := by
  apply BitVec.eq_of_toNat_eq
  rw [leWord_toNat (by simp), leBytes, List.range_eq_range', leNat_bytesFrom]
  have := v.isLt
  simp only [Nat.mul_zero, Nat.pow_zero, Nat.div_one]
  exact Nat.mod_eq_of_lt this

theorem leNat_injective {bs cs : List Byte} (hl : bs.length = cs.length) (h : leNat bs = leNat cs) : bs = cs := by
  induction bs generalizing cs with
  | nil => cases cs with
    | nil => rfl
    | cons c cs => simp at hl
  | cons b bs ih => cases cs with
    | nil => simp at hl
    | cons c cs =>
      simp only [leNat] at h
      have hb := b.isLt
      have hc := c.isLt
      have h1 : b.toNat = c.toNat := by omega
      have h2 : leNat bs = leNat cs := by omega
      rw [BitVec.eq_of_toNat_eq h1, ih (by simpa using hl) h2]

/-- Eight bytes are the bytes of their Word. -/
theorem leBytes_leWord {bs : List Byte} (h : bs.length = 8) : leBytes (leWord bs) = bs := by
  apply leNat_injective (by simp [h])
  rw [← leWord_toNat (by simp), leWord_leBytes, leWord_toNat h]

/-! ### Sixteen bytes and a Block -/

@[simp] theorem blockOfBytes_bytesOfBlock (b : Block) : blockOfBytes (bytesOfBlock b) = b := by
  have h : List.take 8 (leBytes b.right) = leBytes b.right := List.take_of_length_le (by simp)
  simp [blockOfBytes, bytesOfBlock, h]

theorem bytesOfBlock_blockOfBytes {w : List Byte} (h : w.length = 16) : bytesOfBlock (blockOfBytes w) = w := by
  simp only [bytesOfBlock, blockOfBytes]
  rw [leBytes_leWord (by simp [h]), leBytes_leWord (by simp [h])]
  rw [List.take_of_length_le (l := w.drop 8) (by simp [h]), List.take_append_drop]

/-- `BUF` filled with 16 bytes reads as their Block. -/
theorem memRead_writeBytes {m : Memory} (w : List Byte) (h : Memory.wf m = true) (hw : w.length = 16) :
    memRead (Memory.writeBytes m 0 w) 0 = (blockOfBytes w).left ∧
      memRead (Memory.writeBytes m 0 w) 8 = (blockOfBytes w).right := by
  constructor
  · simp only [memRead, blockOfBytes]
    rw [show (0 : Nat) = 0 + 0 from rfl, Memory.readBytes_writeBytes w 0 8 0 h (by omega) (by omega), List.drop_zero]
  · simp only [memRead, blockOfBytes]
    rw [show Memory.readBytes (Memory.writeBytes m 0 w) 8 8 = Memory.readBytes (Memory.writeBytes m 0 w) (0 + 8) 8 from rfl,
      Memory.readBytes_writeBytes w 0 8 8 h (by omega) (by omega)]

theorem Memory.writeBytes_append (m : Memory) (off : Nat) (vs ws : List Byte) :
    Memory.writeBytes m off (vs ++ ws) = Memory.writeBytes (Memory.writeBytes m off vs) (off + vs.length) ws := by
  induction vs generalizing m off with
  | nil => rfl
  | cons v vs ih =>
    simp only [List.cons_append, Memory.writeBytes, List.length_cons]
    rw [ih, show off + 1 + vs.length = off + (vs.length + 1) by omega]

/-- Storing `(L, R)` in `BUF` writes the 16 bytes of the Block. -/
theorem memWrite_block (m : Memory) (b : Block) :
    memWrite (memWrite m 0 b.left) 8 b.right = Memory.writeBytes m 0 (bytesOfBlock b) := by
  simp only [memWrite, bytesOfBlock]
  rw [Memory.writeBytes_append, length_leBytes]

/-- The whole of `BUF` after 16 bytes were written. -/
theorem readBytes_writeBytes_all {m : Memory} (w : List Byte) (h : Memory.wf m = true) (hw : w.length = 16) :
    Memory.readBytes (Memory.writeBytes m 0 w) 0 16 = w := by
  have := Memory.readBytes_writeBytes w 0 16 0 h (by omega) (by omega)
  rw [Nat.add_zero, List.drop_zero, List.take_of_length_le (by omega)] at this
  exact this

/-! ### Padding and windows -/

theorem padLen_mod (n : Nat) : padLen n % 16 = 0 := by
  simp only [padLen]; omega

theorem le_padLen (n : Nat) : n ≤ padLen n := Nat.le_add_right _ _

theorem padLen_lt (n : Nat) : padLen n < n + 16 := by
  simp only [padLen]; omega

@[simp] theorem padLen_zero : padLen 0 = 0 := rfl

@[simp] theorem length_pad (p : List Byte) : (pad p).length = padLen p.length := by
  have := le_padLen p.length
  simp only [pad, List.length_append, List.length_replicate]; omega

theorem length_of_mem_windows {m : Nat} {q w : List Byte} (hq : 16 * m ≤ q.length) (hw : w ∈ windows m q) :
    w.length = 16 := by
  induction m generalizing q with
  | zero => simp [windows] at hw
  | succ m ih =>
    simp only [windows, Config.blockBytes, List.mem_cons] at hw
    rcases hw with rfl | hw
    · simp only [List.length_take]; omega
    · exact ih (by simp only [List.length_drop]; omega) hw

/-- The windows of a byte sequence cover it in order. -/
theorem flatten_windows {m : Nat} {q : List Byte} (hq : q.length = 16 * m) : (windows m q).flatten = q := by
  induction m generalizing q with
  | zero => simp only [windows, List.flatten_nil]; exact (List.length_eq_zero_iff.mp (by omega)).symm
  | succ m ih =>
    simp only [windows, Config.blockBytes, List.flatten_cons]
    rw [ih (by simp only [List.length_drop]; omega), List.take_append_drop]

/-- The windows of windows put end to end are those windows. -/
theorem windows_flatten {ws : List (List Byte)} (h : ∀ w ∈ ws, w.length = 16) : windows ws.length ws.flatten = ws := by
  induction ws with
  | nil => rfl
  | cons w ws ih =>
    have hw : w.length = 16 := h w (by simp)
    simp only [List.length_cons, windows, Config.blockBytes, List.flatten_cons]
    rw [List.take_left' hw, List.drop_left' hw, ih fun v hv => h v (by simp [hv])]

@[simp] theorem length_windows (m : Nat) (q : List Byte) : (windows m q).length = m := by
  induction m generalizing q with
  | zero => rfl
  | succ m ih => simp [windows, ih]

/-- The transform of each window, window by window. -/
theorem ecbMap_eq_flatten (f : Block → Block) (q : List Byte) :
    ecbMap f q = ((windows (q.length / 16) q).map fun w => bytesOfBlock (f (blockOfBytes w))).flatten := rfl

theorem length_flatten_blocks (bs : List Block) : ((bs.map bytesOfBlock).flatten).length = 16 * bs.length := by
  induction bs with
  | nil => rfl
  | cons b bs ih =>
    rw [List.map_cons, List.flatten_cons, List.length_append, length_bytesOfBlock, ih, List.length_cons]; omega

@[simp] theorem length_ecbMap (f : Block → Block) (q : List Byte) : (ecbMap f q).length = 16 * (q.length / 16) := by
  have h := length_flatten_blocks ((windows (q.length / 16) q).map fun w => f (blockOfBytes w))
  rw [List.map_map] at h
  rw [ecbMap_eq_flatten]
  exact h.trans (by simp)

/-- The first window of a sequence, transformed, then the rest. -/
theorem ecbMap_cons (f : Block → Block) {q : List Byte} (h : 16 ≤ q.length) :
    ecbMap f q = bytesOfBlock (f (blockOfBytes (q.take 16))) ++ ecbMap f (q.drop 16) := by
  obtain ⟨m, hm⟩ : ∃ m, q.length / 16 = m + 1 := ⟨q.length / 16 - 1, by omega⟩
  have hd : (q.drop 16).length / 16 = m := by simp only [List.length_drop]; omega
  simp only [ecbMap, Config.blockBytes, hm, hd, windows, List.flatMap_cons]

theorem ecbMap_nil_of_lt (f : Block → Block) {q : List Byte} (h : q.length < 16) : ecbMap f q = [] := by
  have : q.length / 16 = 0 := by omega
  simp only [ecbMap, Config.blockBytes, this, windows, List.flatMap_nil]

/-- Windows at the end of a sequence of whole windows are transformed after the others. -/
theorem ecbMap_append (f : Block → Block) {p q : List Byte} (h : p.length % 16 = 0) :
    ecbMap f (p ++ q) = ecbMap f p ++ ecbMap f q := by
  obtain ⟨m, hm⟩ : ∃ m, p.length = 16 * m := ⟨p.length / 16, by omega⟩
  induction m generalizing p with
  | zero =>
    have : p = [] := List.length_eq_zero_iff.mp (by omega)
    subst this
    simp [ecbMap_nil_of_lt]
  | succ m ih =>
    have h16 : 16 ≤ p.length := by omega
    rw [ecbMap_cons f (q := p ++ q) (by simp only [List.length_append]; omega), ecbMap_cons f h16,
      List.take_append_of_le_length h16, List.drop_append_of_le_length h16,
      ih (by simp only [List.length_drop]; omega) (by simp only [List.length_drop]; omega), List.append_assoc]

end Sys2Proof.Machine
end

