-- ==== Sys2Proof/Laws/State.lean ====
section
/-! SUPPORT. One lemma per field per named update of the state, true by rfl, so that no proof unfolds a record update. -/

namespace Sys2Proof.Machine

/-! ### State.withBlock -/

@[simp] theorem State.withBlock_diag (s : State) (b : Block) : (s.withBlock b).diag = s.diag := rfl
@[simp] theorem State.withBlock_busy (s : State) (b : Block) : (s.withBlock b).busy = s.busy := rfl
@[simp] theorem State.withBlock_rkv (s : State) (b : Block) : (s.withBlock b).rkv = s.rkv := rfl
@[simp] theorem State.withBlock_err (s : State) (b : Block) : (s.withBlock b).err = s.err := rfl
@[simp] theorem State.withBlock_len (s : State) (b : Block) : (s.withBlock b).len = s.len := rfl
@[simp] theorem State.withBlock_key (s : State) (b : Block) : (s.withBlock b).key = s.key := rfl
@[simp] theorem State.withBlock_rk (s : State) (b : Block) : (s.withBlock b).rk = s.rk := rfl
@[simp] theorem State.withBlock_l (s : State) (b : Block) : (s.withBlock b).l = b.left := rfl
@[simp] theorem State.withBlock_r (s : State) (b : Block) : (s.withBlock b).r = b.right := rfl
@[simp] theorem State.withBlock_ksB (s : State) (b : Block) : (s.withBlock b).ksB = s.ksB := rfl
@[simp] theorem State.withBlock_ksA (s : State) (b : Block) : (s.withBlock b).ksA = s.ksA := rfl
@[simp] theorem State.withBlock_ksI (s : State) (b : Block) : (s.withBlock b).ksI = s.ksI := rfl
@[simp] theorem State.withBlock_buf (s : State) (b : Block) : (s.withBlock b).buf = s.buf := rfl
@[simp] theorem State.withBlock_cnt (s : State) (b : Block) : (s.withBlock b).cnt = s.cnt := rfl
@[simp] theorem State.withBlock_blk (s : State) (b : Block) : (s.withBlock b).blk = s.blk := rfl
@[simp] theorem State.withBlock_rnd (s : State) (b : Block) : (s.withBlock b).rnd = s.rnd := rfl
@[simp] theorem State.withBlock_host (s : State) (b : Block) : (s.withBlock b).host = s.host := rfl
@[simp] theorem State.withBlock_inp (s : State) (b : Block) : (s.withBlock b).inp = s.inp := rfl
@[simp] theorem State.withBlock_out (s : State) (b : Block) : (s.withBlock b).out = s.out := rfl
@[simp] theorem State.withBlock_rdata (s : State) (b : Block) : (s.withBlock b).rdata = s.rdata := rfl

/-! ### startCommand -/

@[simp] theorem startCommand_diag (s : State) : (startCommand s).diag = s.diag := rfl
@[simp] theorem startCommand_busy (s : State) : (startCommand s).busy = true := rfl
@[simp] theorem startCommand_rkv (s : State) : (startCommand s).rkv = s.rkv := rfl
@[simp] theorem startCommand_err (s : State) : (startCommand s).err = s.err := rfl
@[simp] theorem startCommand_len (s : State) : (startCommand s).len = s.len := rfl
@[simp] theorem startCommand_key (s : State) : (startCommand s).key = s.key := rfl
@[simp] theorem startCommand_rk (s : State) : (startCommand s).rk = s.rk := rfl
@[simp] theorem startCommand_l (s : State) : (startCommand s).l = s.l := rfl
@[simp] theorem startCommand_r (s : State) : (startCommand s).r = s.r := rfl
@[simp] theorem startCommand_ksB (s : State) : (startCommand s).ksB = s.ksB := rfl
@[simp] theorem startCommand_ksA (s : State) : (startCommand s).ksA = s.ksA := rfl
@[simp] theorem startCommand_ksI (s : State) : (startCommand s).ksI = s.ksI := rfl
@[simp] theorem startCommand_buf (s : State) : (startCommand s).buf = s.buf := rfl
@[simp] theorem startCommand_cnt (s : State) : (startCommand s).cnt = s.cnt := rfl
@[simp] theorem startCommand_blk (s : State) : (startCommand s).blk = s.blk := rfl
@[simp] theorem startCommand_rnd (s : State) : (startCommand s).rnd = s.rnd := rfl
@[simp] theorem startCommand_host (s : State) : (startCommand s).host = s.host := rfl
@[simp] theorem startCommand_inp (s : State) : (startCommand s).inp = s.inp := rfl
@[simp] theorem startCommand_out (s : State) : (startCommand s).out = s.out := rfl
@[simp] theorem startCommand_rdata (s : State) : (startCommand s).rdata = s.rdata := rfl

/-! ### endCommand -/

@[simp] theorem endCommand_diag (c : BitVec 4) (s : State) : (endCommand c s).diag = s.diag := rfl
@[simp] theorem endCommand_busy (c : BitVec 4) (s : State) : (endCommand c s).busy = false := rfl
@[simp] theorem endCommand_rkv (c : BitVec 4) (s : State) : (endCommand c s).rkv = s.rkv := rfl
@[simp] theorem endCommand_err (c : BitVec 4) (s : State) : (endCommand c s).err = c := rfl
@[simp] theorem endCommand_len (c : BitVec 4) (s : State) : (endCommand c s).len = s.len := rfl
@[simp] theorem endCommand_key (c : BitVec 4) (s : State) : (endCommand c s).key = s.key := rfl
@[simp] theorem endCommand_rk (c : BitVec 4) (s : State) : (endCommand c s).rk = s.rk := rfl
@[simp] theorem endCommand_l (c : BitVec 4) (s : State) : (endCommand c s).l = s.l := rfl
@[simp] theorem endCommand_r (c : BitVec 4) (s : State) : (endCommand c s).r = s.r := rfl
@[simp] theorem endCommand_ksB (c : BitVec 4) (s : State) : (endCommand c s).ksB = s.ksB := rfl
@[simp] theorem endCommand_ksA (c : BitVec 4) (s : State) : (endCommand c s).ksA = s.ksA := rfl
@[simp] theorem endCommand_ksI (c : BitVec 4) (s : State) : (endCommand c s).ksI = s.ksI := rfl
@[simp] theorem endCommand_buf (c : BitVec 4) (s : State) : (endCommand c s).buf = s.buf := rfl
@[simp] theorem endCommand_cnt (c : BitVec 4) (s : State) : (endCommand c s).cnt = s.cnt := rfl
@[simp] theorem endCommand_blk (c : BitVec 4) (s : State) : (endCommand c s).blk = s.blk := rfl
@[simp] theorem endCommand_rnd (c : BitVec 4) (s : State) : (endCommand c s).rnd = s.rnd := rfl
@[simp] theorem endCommand_host (c : BitVec 4) (s : State) : (endCommand c s).host = s.host := rfl
@[simp] theorem endCommand_inp (c : BitVec 4) (s : State) : (endCommand c s).inp = s.inp := rfl
@[simp] theorem endCommand_out (c : BitVec 4) (s : State) : (endCommand c s).out = s.out := rfl
@[simp] theorem endCommand_rdata (c : BitVec 4) (s : State) : (endCommand c s).rdata = s.rdata := rfl

/-! ### applyReset -/

@[simp] theorem applyReset_diag (s : State) : (applyReset s).diag = false := rfl
@[simp] theorem applyReset_busy (s : State) : (applyReset s).busy = false := rfl
@[simp] theorem applyReset_rkv (s : State) : (applyReset s).rkv = false := rfl
@[simp] theorem applyReset_err (s : State) : (applyReset s).err = 0 := rfl
@[simp] theorem applyReset_len (s : State) : (applyReset s).len = 0 := rfl
@[simp] theorem applyReset_key (s : State) : (applyReset s).key = Vector.replicate 4 0 := rfl
@[simp] theorem applyReset_rk (s : State) : (applyReset s).rk = Vector.replicate 27 0 := rfl
@[simp] theorem applyReset_l (s : State) : (applyReset s).l = 0 := rfl
@[simp] theorem applyReset_r (s : State) : (applyReset s).r = 0 := rfl
@[simp] theorem applyReset_ksB (s : State) : (applyReset s).ksB = 0 := rfl
@[simp] theorem applyReset_ksA (s : State) : (applyReset s).ksA = Vector.replicate 3 0 := rfl
@[simp] theorem applyReset_ksI (s : State) : (applyReset s).ksI = 0 := rfl
@[simp] theorem applyReset_buf (s : State) : (applyReset s).buf = [] := rfl
@[simp] theorem applyReset_cnt (s : State) : (applyReset s).cnt = 0 := rfl
@[simp] theorem applyReset_blk (s : State) : (applyReset s).blk = 0 := rfl
@[simp] theorem applyReset_rnd (s : State) : (applyReset s).rnd = 0 := rfl
@[simp] theorem applyReset_host (s : State) : (applyReset s).host = s.host := rfl
@[simp] theorem applyReset_inp (s : State) : (applyReset s).inp = s.inp := rfl
@[simp] theorem applyReset_out (s : State) : (applyReset s).out = s.out := rfl
@[simp] theorem applyReset_rdata (s : State) : (applyReset s).rdata = s.rdata := rfl

/-! ### ksLoad -/

@[simp] theorem ksLoad_diag (s : State) : (ksLoad s).diag = s.diag := rfl
@[simp] theorem ksLoad_busy (s : State) : (ksLoad s).busy = s.busy := rfl
@[simp] theorem ksLoad_rkv (s : State) : (ksLoad s).rkv = s.rkv := rfl
@[simp] theorem ksLoad_err (s : State) : (ksLoad s).err = s.err := rfl
@[simp] theorem ksLoad_len (s : State) : (ksLoad s).len = s.len := rfl
@[simp] theorem ksLoad_key (s : State) : (ksLoad s).key = s.key := rfl
@[simp] theorem ksLoad_rk (s : State) : (ksLoad s).rk = s.rk.set 0 s.key[0] := rfl
@[simp] theorem ksLoad_l (s : State) : (ksLoad s).l = s.l := rfl
@[simp] theorem ksLoad_r (s : State) : (ksLoad s).r = s.r := rfl
@[simp] theorem ksLoad_ksB (s : State) : (ksLoad s).ksB = s.key[0] := rfl
@[simp] theorem ksLoad_ksA (s : State) : (ksLoad s).ksA = #v[s.key[1], s.key[2], s.key[3]] := rfl
@[simp] theorem ksLoad_ksI (s : State) : (ksLoad s).ksI = 0 := rfl
@[simp] theorem ksLoad_buf (s : State) : (ksLoad s).buf = s.buf := rfl
@[simp] theorem ksLoad_cnt (s : State) : (ksLoad s).cnt = s.cnt := rfl
@[simp] theorem ksLoad_blk (s : State) : (ksLoad s).blk = s.blk := rfl
@[simp] theorem ksLoad_rnd (s : State) : (ksLoad s).rnd = s.rnd := rfl
@[simp] theorem ksLoad_host (s : State) : (ksLoad s).host = s.host := rfl
@[simp] theorem ksLoad_inp (s : State) : (ksLoad s).inp = s.inp := rfl
@[simp] theorem ksLoad_out (s : State) : (ksLoad s).out = s.out := rfl
@[simp] theorem ksLoad_rdata (s : State) : (ksLoad s).rdata = s.rdata := rfl

/-! ### roundFwdStep -/

@[simp] theorem roundFwdStep_diag (s : State) : (roundFwdStep s).diag = s.diag := rfl
@[simp] theorem roundFwdStep_busy (s : State) : (roundFwdStep s).busy = s.busy := rfl
@[simp] theorem roundFwdStep_rkv (s : State) : (roundFwdStep s).rkv = s.rkv := rfl
@[simp] theorem roundFwdStep_err (s : State) : (roundFwdStep s).err = s.err := rfl
@[simp] theorem roundFwdStep_len (s : State) : (roundFwdStep s).len = s.len := rfl
@[simp] theorem roundFwdStep_key (s : State) : (roundFwdStep s).key = s.key := rfl
@[simp] theorem roundFwdStep_rk (s : State) : (roundFwdStep s).rk = s.rk := rfl
@[simp] theorem roundFwdStep_l (s : State) : (roundFwdStep s).l = (roundFwd ⟨s.l, s.r⟩ (s.rk.get s.rnd)).left := rfl
@[simp] theorem roundFwdStep_r (s : State) : (roundFwdStep s).r = (roundFwd ⟨s.l, s.r⟩ (s.rk.get s.rnd)).right := rfl
@[simp] theorem roundFwdStep_ksB (s : State) : (roundFwdStep s).ksB = s.ksB := rfl
@[simp] theorem roundFwdStep_ksA (s : State) : (roundFwdStep s).ksA = s.ksA := rfl
@[simp] theorem roundFwdStep_ksI (s : State) : (roundFwdStep s).ksI = s.ksI := rfl
@[simp] theorem roundFwdStep_buf (s : State) : (roundFwdStep s).buf = s.buf := rfl
@[simp] theorem roundFwdStep_cnt (s : State) : (roundFwdStep s).cnt = s.cnt := rfl
@[simp] theorem roundFwdStep_blk (s : State) : (roundFwdStep s).blk = s.blk := rfl
@[simp] theorem roundFwdStep_host (s : State) : (roundFwdStep s).host = s.host := rfl
@[simp] theorem roundFwdStep_inp (s : State) : (roundFwdStep s).inp = s.inp := rfl
@[simp] theorem roundFwdStep_out (s : State) : (roundFwdStep s).out = s.out := rfl
@[simp] theorem roundFwdStep_rdata (s : State) : (roundFwdStep s).rdata = s.rdata := rfl

/-! ### roundInvStep -/

@[simp] theorem roundInvStep_diag (s : State) : (roundInvStep s).diag = s.diag := rfl
@[simp] theorem roundInvStep_busy (s : State) : (roundInvStep s).busy = s.busy := rfl
@[simp] theorem roundInvStep_rkv (s : State) : (roundInvStep s).rkv = s.rkv := rfl
@[simp] theorem roundInvStep_err (s : State) : (roundInvStep s).err = s.err := rfl
@[simp] theorem roundInvStep_len (s : State) : (roundInvStep s).len = s.len := rfl
@[simp] theorem roundInvStep_key (s : State) : (roundInvStep s).key = s.key := rfl
@[simp] theorem roundInvStep_rk (s : State) : (roundInvStep s).rk = s.rk := rfl
@[simp] theorem roundInvStep_l (s : State) : (roundInvStep s).l = (roundInv ⟨s.l, s.r⟩ (s.rk.get s.rnd)).left := rfl
@[simp] theorem roundInvStep_r (s : State) : (roundInvStep s).r = (roundInv ⟨s.l, s.r⟩ (s.rk.get s.rnd)).right := rfl
@[simp] theorem roundInvStep_ksB (s : State) : (roundInvStep s).ksB = s.ksB := rfl
@[simp] theorem roundInvStep_ksA (s : State) : (roundInvStep s).ksA = s.ksA := rfl
@[simp] theorem roundInvStep_ksI (s : State) : (roundInvStep s).ksI = s.ksI := rfl
@[simp] theorem roundInvStep_buf (s : State) : (roundInvStep s).buf = s.buf := rfl
@[simp] theorem roundInvStep_cnt (s : State) : (roundInvStep s).cnt = s.cnt := rfl
@[simp] theorem roundInvStep_blk (s : State) : (roundInvStep s).blk = s.blk := rfl
@[simp] theorem roundInvStep_host (s : State) : (roundInvStep s).host = s.host := rfl
@[simp] theorem roundInvStep_inp (s : State) : (roundInvStep s).inp = s.inp := rfl
@[simp] theorem roundInvStep_out (s : State) : (roundInvStep s).out = s.out := rfl
@[simp] theorem roundInvStep_rdata (s : State) : (roundInvStep s).rdata = s.rdata := rfl

/-! ### ecStart -/

@[simp] theorem ecStart_diag (s : State) : (ecStart s).diag = s.diag := rfl
@[simp] theorem ecStart_busy (s : State) : (ecStart s).busy = s.busy := rfl
@[simp] theorem ecStart_rkv (s : State) : (ecStart s).rkv = s.rkv := rfl
@[simp] theorem ecStart_err (s : State) : (ecStart s).err = s.err := rfl
@[simp] theorem ecStart_len (s : State) : (ecStart s).len = s.len := rfl
@[simp] theorem ecStart_key (s : State) : (ecStart s).key = s.key := rfl
@[simp] theorem ecStart_rk (s : State) : (ecStart s).rk = s.rk := rfl
@[simp] theorem ecStart_l (s : State) : (ecStart s).l = s.l := rfl
@[simp] theorem ecStart_r (s : State) : (ecStart s).r = s.r := rfl
@[simp] theorem ecStart_ksB (s : State) : (ecStart s).ksB = s.ksB := rfl
@[simp] theorem ecStart_ksA (s : State) : (ecStart s).ksA = s.ksA := rfl
@[simp] theorem ecStart_ksI (s : State) : (ecStart s).ksI = s.ksI := rfl
@[simp] theorem ecStart_buf (s : State) : (ecStart s).buf = s.buf := rfl
@[simp] theorem ecStart_cnt (s : State) : (ecStart s).cnt = 0 := rfl
@[simp] theorem ecStart_blk (s : State) : (ecStart s).blk = 0 := rfl
@[simp] theorem ecStart_rnd (s : State) : (ecStart s).rnd = s.rnd := rfl
@[simp] theorem ecStart_host (s : State) : (ecStart s).host = s.host := rfl
@[simp] theorem ecStart_inp (s : State) : (ecStart s).inp = s.inp := rfl
@[simp] theorem ecStart_out (s : State) : (ecStart s).out = s.out := rfl
@[simp] theorem ecStart_rdata (s : State) : (ecStart s).rdata = s.rdata := rfl

/-! ### ecFill -/

@[simp] theorem ecFill_diag (n : Nat) (s : State) : (ecFill n s).diag = s.diag := rfl
@[simp] theorem ecFill_busy (n : Nat) (s : State) : (ecFill n s).busy = s.busy := rfl
@[simp] theorem ecFill_rkv (n : Nat) (s : State) : (ecFill n s).rkv = s.rkv := rfl
@[simp] theorem ecFill_err (n : Nat) (s : State) : (ecFill n s).err = s.err := rfl
@[simp] theorem ecFill_len (n : Nat) (s : State) : (ecFill n s).len = s.len := rfl
@[simp] theorem ecFill_key (n : Nat) (s : State) : (ecFill n s).key = s.key := rfl
@[simp] theorem ecFill_rk (n : Nat) (s : State) : (ecFill n s).rk = s.rk := rfl
@[simp] theorem ecFill_l (n : Nat) (s : State) : (ecFill n s).l = s.l := rfl
@[simp] theorem ecFill_r (n : Nat) (s : State) : (ecFill n s).r = s.r := rfl
@[simp] theorem ecFill_ksB (n : Nat) (s : State) : (ecFill n s).ksB = s.ksB := rfl
@[simp] theorem ecFill_ksA (n : Nat) (s : State) : (ecFill n s).ksA = s.ksA := rfl
@[simp] theorem ecFill_ksI (n : Nat) (s : State) : (ecFill n s).ksI = s.ksI := rfl
@[simp] theorem ecFill_cnt (n : Nat) (s : State) : (ecFill n s).cnt = 16 := rfl
@[simp] theorem ecFill_blk (n : Nat) (s : State) : (ecFill n s).blk = s.blk := rfl
@[simp] theorem ecFill_rnd (n : Nat) (s : State) : (ecFill n s).rnd = s.rnd := rfl
@[simp] theorem ecFill_host (n : Nat) (s : State) : (ecFill n s).host = s.host := rfl
@[simp] theorem ecFill_inp (n : Nat) (s : State) : (ecFill n s).inp = s.inp.drop (min 16 (n - 16 * s.blk.toNat)) := rfl
@[simp] theorem ecFill_out (n : Nat) (s : State) : (ecFill n s).out = s.out := rfl
@[simp] theorem ecFill_rdata (n : Nat) (s : State) : (ecFill n s).rdata = s.rdata := rfl

/-! ### ecLoad -/

@[simp] theorem ecLoad_diag (s : State) : (ecLoad s).diag = s.diag := by dsimp only [ecLoad]
@[simp] theorem ecLoad_busy (s : State) : (ecLoad s).busy = s.busy := by dsimp only [ecLoad]
@[simp] theorem ecLoad_rkv (s : State) : (ecLoad s).rkv = s.rkv := by dsimp only [ecLoad]
@[simp] theorem ecLoad_err (s : State) : (ecLoad s).err = s.err := by dsimp only [ecLoad]
@[simp] theorem ecLoad_len (s : State) : (ecLoad s).len = s.len := by dsimp only [ecLoad]
@[simp] theorem ecLoad_key (s : State) : (ecLoad s).key = s.key := by dsimp only [ecLoad]
@[simp] theorem ecLoad_rk (s : State) : (ecLoad s).rk = s.rk := by dsimp only [ecLoad]
@[simp] theorem ecLoad_l (s : State) : (ecLoad s).l = memRead s.buf 0 := by dsimp only [ecLoad]
@[simp] theorem ecLoad_r (s : State) : (ecLoad s).r = memRead s.buf 8 := by dsimp only [ecLoad]
@[simp] theorem ecLoad_ksB (s : State) : (ecLoad s).ksB = s.ksB := by dsimp only [ecLoad]
@[simp] theorem ecLoad_ksA (s : State) : (ecLoad s).ksA = s.ksA := by dsimp only [ecLoad]
@[simp] theorem ecLoad_ksI (s : State) : (ecLoad s).ksI = s.ksI := by dsimp only [ecLoad]
@[simp] theorem ecLoad_buf (s : State) : (ecLoad s).buf = s.buf := by dsimp only [ecLoad]
@[simp] theorem ecLoad_cnt (s : State) : (ecLoad s).cnt = s.cnt := by dsimp only [ecLoad]
@[simp] theorem ecLoad_blk (s : State) : (ecLoad s).blk = s.blk := by dsimp only [ecLoad]
@[simp] theorem ecLoad_rnd (s : State) : (ecLoad s).rnd = s.rnd := by dsimp only [ecLoad]
@[simp] theorem ecLoad_host (s : State) : (ecLoad s).host = s.host := by dsimp only [ecLoad]
@[simp] theorem ecLoad_inp (s : State) : (ecLoad s).inp = s.inp := by dsimp only [ecLoad]
@[simp] theorem ecLoad_out (s : State) : (ecLoad s).out = s.out := by dsimp only [ecLoad]
@[simp] theorem ecLoad_rdata (s : State) : (ecLoad s).rdata = s.rdata := by dsimp only [ecLoad]

/-! ### ecStore -/

@[simp] theorem ecStore_diag (s : State) : (ecStore s).diag = s.diag := by dsimp only [ecStore]
@[simp] theorem ecStore_busy (s : State) : (ecStore s).busy = s.busy := by dsimp only [ecStore]
@[simp] theorem ecStore_rkv (s : State) : (ecStore s).rkv = s.rkv := by dsimp only [ecStore]
@[simp] theorem ecStore_err (s : State) : (ecStore s).err = s.err := by dsimp only [ecStore]
@[simp] theorem ecStore_len (s : State) : (ecStore s).len = s.len := by dsimp only [ecStore]
@[simp] theorem ecStore_key (s : State) : (ecStore s).key = s.key := by dsimp only [ecStore]
@[simp] theorem ecStore_rk (s : State) : (ecStore s).rk = s.rk := by dsimp only [ecStore]
@[simp] theorem ecStore_l (s : State) : (ecStore s).l = s.l := by dsimp only [ecStore]
@[simp] theorem ecStore_r (s : State) : (ecStore s).r = s.r := by dsimp only [ecStore]
@[simp] theorem ecStore_ksB (s : State) : (ecStore s).ksB = s.ksB := by dsimp only [ecStore]
@[simp] theorem ecStore_ksA (s : State) : (ecStore s).ksA = s.ksA := by dsimp only [ecStore]
@[simp] theorem ecStore_ksI (s : State) : (ecStore s).ksI = s.ksI := by dsimp only [ecStore]
@[simp] theorem ecStore_buf (s : State) : (ecStore s).buf = memWrite (memWrite s.buf 0 s.l) 8 s.r := by dsimp only [ecStore]
@[simp] theorem ecStore_cnt (s : State) : (ecStore s).cnt = s.cnt := by dsimp only [ecStore]
@[simp] theorem ecStore_blk (s : State) : (ecStore s).blk = s.blk := by dsimp only [ecStore]
@[simp] theorem ecStore_rnd (s : State) : (ecStore s).rnd = s.rnd := by dsimp only [ecStore]
@[simp] theorem ecStore_host (s : State) : (ecStore s).host = s.host := by dsimp only [ecStore]
@[simp] theorem ecStore_inp (s : State) : (ecStore s).inp = s.inp := by dsimp only [ecStore]
@[simp] theorem ecStore_out (s : State) : (ecStore s).out = s.out := by dsimp only [ecStore]
@[simp] theorem ecStore_rdata (s : State) : (ecStore s).rdata = s.rdata := by dsimp only [ecStore]

/-! ### putBuf -/

@[simp] theorem putBuf_diag (s : State) : (putBuf s).diag = s.diag := rfl
@[simp] theorem putBuf_busy (s : State) : (putBuf s).busy = s.busy := rfl
@[simp] theorem putBuf_rkv (s : State) : (putBuf s).rkv = s.rkv := rfl
@[simp] theorem putBuf_err (s : State) : (putBuf s).err = s.err := rfl
@[simp] theorem putBuf_len (s : State) : (putBuf s).len = s.len := rfl
@[simp] theorem putBuf_key (s : State) : (putBuf s).key = s.key := rfl
@[simp] theorem putBuf_rk (s : State) : (putBuf s).rk = s.rk := rfl
@[simp] theorem putBuf_l (s : State) : (putBuf s).l = s.l := rfl
@[simp] theorem putBuf_r (s : State) : (putBuf s).r = s.r := rfl
@[simp] theorem putBuf_ksB (s : State) : (putBuf s).ksB = s.ksB := rfl
@[simp] theorem putBuf_ksA (s : State) : (putBuf s).ksA = s.ksA := rfl
@[simp] theorem putBuf_ksI (s : State) : (putBuf s).ksI = s.ksI := rfl
@[simp] theorem putBuf_buf (s : State) : (putBuf s).buf = s.buf := rfl
@[simp] theorem putBuf_cnt (s : State) : (putBuf s).cnt = s.cnt := rfl
@[simp] theorem putBuf_blk (s : State) : (putBuf s).blk = s.blk := rfl
@[simp] theorem putBuf_rnd (s : State) : (putBuf s).rnd = s.rnd := rfl
@[simp] theorem putBuf_host (s : State) : (putBuf s).host = s.host := rfl
@[simp] theorem putBuf_inp (s : State) : (putBuf s).inp = s.inp := rfl
@[simp] theorem putBuf_out (s : State) : (putBuf s).out = s.out ++ Memory.readBytes s.buf 0 16 := rfl
@[simp] theorem putBuf_rdata (s : State) : (putBuf s).rdata = s.rdata := rfl

/-! ### ecDrain -/

@[simp] theorem ecDrain_diag (s : State) : (ecDrain s).diag = s.diag := rfl
@[simp] theorem ecDrain_busy (s : State) : (ecDrain s).busy = s.busy := rfl
@[simp] theorem ecDrain_rkv (s : State) : (ecDrain s).rkv = s.rkv := rfl
@[simp] theorem ecDrain_err (s : State) : (ecDrain s).err = s.err := rfl
@[simp] theorem ecDrain_len (s : State) : (ecDrain s).len = s.len := rfl
@[simp] theorem ecDrain_key (s : State) : (ecDrain s).key = s.key := rfl
@[simp] theorem ecDrain_rk (s : State) : (ecDrain s).rk = s.rk := rfl
@[simp] theorem ecDrain_l (s : State) : (ecDrain s).l = s.l := rfl
@[simp] theorem ecDrain_r (s : State) : (ecDrain s).r = s.r := rfl
@[simp] theorem ecDrain_ksB (s : State) : (ecDrain s).ksB = s.ksB := rfl
@[simp] theorem ecDrain_ksA (s : State) : (ecDrain s).ksA = s.ksA := rfl
@[simp] theorem ecDrain_ksI (s : State) : (ecDrain s).ksI = s.ksI := rfl
@[simp] theorem ecDrain_buf (s : State) : (ecDrain s).buf = s.buf := rfl
@[simp] theorem ecDrain_cnt (s : State) : (ecDrain s).cnt = 0 := rfl
@[simp] theorem ecDrain_blk (s : State) : (ecDrain s).blk = s.blk + 1 := rfl
@[simp] theorem ecDrain_rnd (s : State) : (ecDrain s).rnd = s.rnd := rfl
@[simp] theorem ecDrain_host (s : State) : (ecDrain s).host = s.host := rfl
@[simp] theorem ecDrain_inp (s : State) : (ecDrain s).inp = s.inp := rfl
@[simp] theorem ecDrain_out (s : State) : (ecDrain s).out = s.out ++ Memory.readBytes s.buf 0 16 := rfl
@[simp] theorem ecDrain_rdata (s : State) : (ecDrain s).rdata = s.rdata := rfl

/-! ### State.visible -/

@[simp] theorem State.visible_diag (s : State) : s.visible.diag = s.diag := rfl
@[simp] theorem State.visible_busy (s : State) : s.visible.busy = s.busy := rfl
@[simp] theorem State.visible_rkv (s : State) : s.visible.rkv = s.rkv := rfl
@[simp] theorem State.visible_err (s : State) : s.visible.err = s.err := rfl
@[simp] theorem State.visible_len (s : State) : s.visible.len = s.len := rfl
@[simp] theorem State.visible_key (s : State) : s.visible.key = s.key := rfl
@[simp] theorem State.visible_rk (s : State) : s.visible.rk = s.rk := rfl
@[simp] theorem State.visible_l (s : State) : s.visible.l = s.l := rfl
@[simp] theorem State.visible_r (s : State) : s.visible.r = s.r := rfl
@[simp] theorem State.visible_ksB (s : State) : s.visible.ksB = 0 := rfl
@[simp] theorem State.visible_ksA (s : State) : s.visible.ksA = Vector.replicate 3 0 := rfl
@[simp] theorem State.visible_ksI (s : State) : s.visible.ksI = 0 := rfl
@[simp] theorem State.visible_buf (s : State) : s.visible.buf = [] := rfl
@[simp] theorem State.visible_cnt (s : State) : s.visible.cnt = 0 := rfl
@[simp] theorem State.visible_blk (s : State) : s.visible.blk = 0 := rfl
@[simp] theorem State.visible_rnd (s : State) : s.visible.rnd = 0 := rfl
@[simp] theorem State.visible_host (s : State) : s.visible.host = s.host := rfl
@[simp] theorem State.visible_inp (s : State) : s.visible.inp = s.inp := rfl
@[simp] theorem State.visible_out (s : State) : s.visible.out = s.out := rfl
@[simp] theorem State.visible_rdata (s : State) : s.visible.rdata = s.rdata := rfl

/-! ### State.block -/

@[simp] theorem State.block_withBlock (s : State) (b : Block) : (s.withBlock b).block = b := rfl
@[simp] theorem State.withBlock_block (s : State) : s.withBlock s.block = s := rfl

end Sys2Proof.Machine
end

