-- ==== Sys2Proof/Laws/Loops.lean ====
section
/-! SUPPORT. What the loops inside the commands do, each said once: the rounds of a block transform, the key-schedule state
machine, and the ECB controller. -/

namespace Sys2Proof.Machine

/-! ### The rounds of a block transform -/

theorem take_succ_rk (rk : RoundKeys) (n : Fin 27) :
    rk.toList.take (n.val + 1) = rk.toList.take n.val ++ [rk.get n] := by
  have hl : n.val < rk.toList.length := by simp
  rw [List.take_succ_eq_append_getElem hl]
  simp [Vector.get]

theorem roundFwdStep_iterate (s : State) (n : Nat) (hn : n ≤ 27) :
    roundFwdStep^[n] { s with rnd := 0 } =
      { s with
        l := ((s.rk.toList.take n).foldl roundFwd s.block).left
        r := ((s.rk.toList.take n).foldl roundFwd s.block).right
        rnd := ⟨min n 26, by omega⟩ } := by
  induction n with
  | zero => rfl
  | succ n ih =>
    rw [Function.iterate_succ_apply', ih (by omega)]
    have e : (⟨min n 26, by omega⟩ : Fin 27) = ⟨n, by omega⟩ := Fin.ext (by simp; omega)
    have t := take_succ_rk s.rk ⟨n, by omega⟩
    simp only at t
    simp only [t, List.foldl_append, List.foldl_cons, List.foldl_nil, roundFwdStep, State.block, State.withBlock, e]
    congr 1
    by_cases h : min n 26 < 26
    · rw [dif_pos h]; exact Fin.ext (by simp only; omega)
    · rw [dif_neg h]; exact Fin.ext (by simp only; omega)

/-- The encrypt rounds turn the Block in `(L, R)` into its encryption and leave `RND` at 26. -/
theorem encryptRounds_eq (s : State) :
    encryptRounds s =
      { s with l := (encryptBlock s.rk s.block).left, r := (encryptBlock s.rk s.block).right, rnd := 26 } := by
  have h := roundFwdStep_iterate s 27 (by omega)
  rw [List.take_of_length_le (by simp)] at h
  exact h

theorem roundInvStep_iterate (s : State) (n : Nat) (hn : n ≤ 27) :
    roundInvStep^[n] { s with rnd := 26 } =
      { s with
        l := ((s.rk.toList.drop (27 - n)).reverse.foldl roundInv s.block).left
        r := ((s.rk.toList.drop (27 - n)).reverse.foldl roundInv s.block).right
        rnd := ⟨26 - n, by omega⟩ } := by
  induction n with
  | zero =>
    have h : s.rk.toList.drop (27 - 0) = [] := by simp
    rw [h]; rfl
  | succ n ih =>
    rw [Function.iterate_succ_apply', ih (by omega)]
    have hl : 26 - n < s.rk.toList.length := by simp; omega
    have e : 27 - (n + 1) = 26 - n := by omega
    have e' : 26 - n + 1 = 27 - n := by omega
    have t : s.rk.toList.drop (27 - (n + 1)) = s.rk.get ⟨26 - n, by omega⟩ :: s.rk.toList.drop (27 - n) := by
      rw [e, List.drop_eq_getElem_cons hl, e']
      simp [Vector.get]
    simp only [t, List.reverse_cons, List.foldl_append, List.foldl_cons, List.foldl_nil, roundInvStep, State.block,
      State.withBlock]
    congr 1

/-- The decrypt rounds turn the Block in `(L, R)` into its decryption and leave `RND` at 0. -/
theorem decryptRounds_eq (s : State) :
    decryptRounds s =
      { s with l := (decryptBlock s.rk s.block).left, r := (decryptBlock s.rk s.block).right, rnd := 0 } := by
  have h := roundInvStep_iterate s 27 (by omega)
  have e : s.rk.toList.drop (27 - 27) = s.rk.toList := List.drop_zero
  rw [e] at h
  exact h

/-- The block transform of a text command. -/
def blockTransform (enc : Bool) (rk : RoundKeys) (b : Block) : Block :=
  if enc then encryptBlock rk b else decryptBlock rk b

/-- The value `RND` has after the block transform of a text command. -/
def lastRound (enc : Bool) : Fin 27 := if enc then 26 else 0

theorem ecRounds_eq (enc : Bool) (s : State) :
    ecRounds enc s =
      { s with
        l := (blockTransform enc s.rk s.block).left
        r := (blockTransform enc s.rk s.block).right
        rnd := lastRound enc } := by
  cases enc
  · exact decryptRounds_eq s
  · exact encryptRounds_eq s

/-! ### The key-schedule state machine -/

/-- `rk[i]` is `b` after `i` iterations (R135). -/
theorem keySchedule_get (k : Key) (i : Fin 27) : (keySchedule k).get i = (scheduleAfter k i.val).b := by
  show (keySchedule k)[i.val] = _
  simp only [keySchedule, Vector.getElem_ofFn]

/-- One KS_STEP with `KS_I` = `n` is iteration `n` of the recurrence (R136). -/
theorem ksStep_eq (s : State) (n : Nat) (hn : n < 26) (hi : s.ksI = ⟨n, by omega⟩) :
    ksStep s =
      { s with
        ksA := (scheduleIter n ⟨s.ksA, s.ksB⟩).a
        ksB := (scheduleIter n ⟨s.ksA, s.ksB⟩).b
        rk := s.rk.set (n + 1) (scheduleIter n ⟨s.ksA, s.ksB⟩).b (by omega)
        ksI := ⟨n + 1, by omega⟩ } := by
  have h : s.ksI.val ≤ 25 := by rw [hi]; simp; omega
  unfold ksStep
  rw [dif_pos h]
  simp only [hi]
  rfl

theorem ksStep_iterate (s : State) (n : Nat) (hn : n ≤ 26) :
    ∃ rk : RoundKeys,
      ksStep^[n] (ksLoad s) =
        { s with
          ksA := (scheduleAfter s.key n).a
          ksB := (scheduleAfter s.key n).b
          ksI := ⟨n, by omega⟩
          rk := rk } ∧
      ∀ i : Fin 27, i.val ≤ n → rk[i.val] = (scheduleAfter s.key i.val).b := by
  induction n with
  | zero =>
    refine ⟨s.rk.set 0 s.key[0], rfl, fun i hi => ?_⟩
    obtain ⟨i, hi'⟩ := i
    obtain rfl : i = 0 := by simpa using hi
    simp [scheduleAfter, scheduleLoad]
  | succ n ih =>
    obtain ⟨rk, h, hr⟩ := ih (by omega)
    refine ⟨rk.set (n + 1) (scheduleAfter s.key (n + 1)).b (by omega), ?_, fun i hi => ?_⟩
    · rw [Function.iterate_succ_apply', h, ksStep_eq _ n (by omega) rfl]
      rfl
    · rw [Vector.getElem_set]
      split
      · rename_i e; rw [e]
      · exact hr i (by omega)

/-- The key-schedule state machine computes the schedule of `KEY`, sets `RKV`, and leaves its registers at the last
iteration (R137, R138, R41). -/
theorem ksRun_eq (s : State) :
    ksRun s =
      { s with
        rk := keySchedule s.key
        rkv := true
        ksB := (keySchedule s.key).get 26
        ksI := 26
        ksA := (scheduleAfter s.key 26).a } := by
  obtain ⟨rk, h, hr⟩ := ksStep_iterate s 26 (by omega)
  have e : rk = keySchedule s.key := by
    apply Vector.ext
    intro i hi
    rw [hr ⟨i, hi⟩ (by simp; omega)]
    simp [keySchedule]
  have e' : (keySchedule s.key).get 26 = (scheduleAfter s.key 26).b := keySchedule_get s.key 26
  rw [ksRun, h, e, e']
  rfl

/-! ### The ECB controller -/

/-- One window of the controller, when IN holds the bytes it takes: the 16 bytes `w` it fills `BUF` with become the bytes of
the transformed Block, in `BUF` and on OUT (R172). -/
theorem ecWindow_eq (enc : Bool) (n : Nat) (s : State) (k : Nat) (w : List Byte) (hk : k = min 16 (n - 16 * s.blk.toNat))
    (hi : k ≤ s.inp.length) (hw : w = s.inp.take k ++ List.replicate (16 - k) Config.padByte)
    (hm : Memory.wf s.buf = true) :
    ecWindow enc n s =
      { s with
        l := (blockTransform enc s.rk (blockOfBytes w)).left
        r := (blockTransform enc s.rk (blockOfBytes w)).right
        rnd := lastRound enc
        buf := Memory.writeBytes [] 0 (bytesOfBlock (blockTransform enc s.rk (blockOfBytes w)))
        inp := s.inp.drop k
        out := s.out ++ bytesOfBlock (blockTransform enc s.rk (blockOfBytes w))
        cnt := 0
        blk := s.blk + 1 } := by
  have hk16 : k ≤ 16 := by omega
  have hl : w.length = 16 := by
    rw [hw, List.length_append, List.length_take, List.length_replicate]; omega
  have hf : ecFill n s = { s with buf := Memory.writeBytes s.buf 0 w, inp := s.inp.drop k, cnt := 16 } := by
    subst hk hw; rfl
  have hload : ecLoad (ecFill n s) =
      { s with
        buf := Memory.writeBytes s.buf 0 w, inp := s.inp.drop k, cnt := 16
        l := (blockOfBytes w).left, r := (blockOfBytes w).right } := by
    obtain ⟨h1, h2⟩ := memRead_writeBytes w hm hl
    rw [hf]
    dsimp only [ecLoad]
    rw [h1, h2]
  rw [ecWindow, hload, ecRounds_eq]
  dsimp only [State.block]
  generalize blockTransform enc s.rk ⟨(blockOfBytes w).left, (blockOfBytes w).right⟩ = b
  have hwf : Memory.wf (Memory.writeBytes s.buf 0 w) = true := Memory.wf_writeBytes w hm (by omega)
  have hb : Memory.writeBytes (Memory.writeBytes s.buf 0 w) 0 (bytesOfBlock b) = Memory.writeBytes [] 0 (bytesOfBlock b) :=
    Memory.writeBytes_all _ hwf rfl (by simp)
  have hr := readBytes_writeBytes_all (m := []) (bytesOfBlock b) rfl (by simp)
  dsimp only [ecDrain, ecStore, putBuf, Config.blockBytes]
  rw [memWrite_block, hb, hr]

/-- The controller's state after `j` windows of the padded or given text `q`. -/
def afterWindows (enc : Bool) (n : Nat) (q : List Byte) (s : State) : Nat → State
  | 0 => ecStart s
  | j + 1 =>
    let b := blockTransform enc s.rk (blockOfBytes ((q.drop (16 * j)).take 16))
    { s with
      l := b.left
      r := b.right
      rnd := lastRound enc
      buf := Memory.writeBytes [] 0 (bytesOfBlock b)
      inp := s.inp.drop (min n (16 * (j + 1)))
      out := s.out ++ ecbMap (blockTransform enc s.rk) (q.take (16 * (j + 1)))
      cnt := 0
      blk := BitVec.ofNat 29 (j + 1) }

theorem wf_afterWindows (enc : Bool) (n : Nat) (q : List Byte) (s : State) (hm : Memory.wf s.buf = true) (j : Nat) :
    Memory.wf (afterWindows enc n q s j).buf = true := by
  cases j with
  | zero => simpa only [afterWindows, ecStart_buf] using hm
  | succ j =>
    simp only [afterWindows]
    exact Memory.wf_writeBytes _ rfl (by simp)

/-- The bytes of window `j` of the text are what the controller fills `BUF` with. -/
theorem window_eq_fill {n j : Nat} {p q : List Byte} (hq : q = pad (p.take n)) (hn : n ≤ p.length)
    (hj : 16 * j < padLen n) :
    (q.drop (16 * j)).take 16 =
      (p.drop (min n (16 * j))).take (min 16 (n - 16 * j)) ++
        List.replicate (16 - min 16 (n - 16 * j)) Config.padByte := by
  have hp := padLen_lt n
  have hm := padLen_mod n
  have hl := le_padLen n
  have hjn : 16 * j < n := by
    rcases Nat.lt_or_ge (16 * j) n with h | h
    · exact h
    · exfalso
      simp only [padLen] at hj
      omega
  have h1 : min n (16 * j) = 16 * j := by omega
  have hlen : (p.take n).length = n := by rw [List.length_take]; omega
  subst hq
  simp only [pad, hlen, h1]
  rw [List.drop_append_of_le_length (by omega), List.take_append, List.length_drop, hlen, List.take_replicate,
    List.drop_take, List.take_take]
  congr 2
  omega

theorem ecWindow_iterate (enc : Bool) (s : State) (n : Nat) (q : List Byte) (hq : q = pad (s.inp.take n))
    (hn : n ≤ s.inp.length) (hn32 : n < 2 ^ 32) (hm : Memory.wf s.buf = true) (j : Nat) (hj : 16 * j ≤ padLen n) :
    (ecWindow enc n)^[j] (ecStart s) = afterWindows enc n q s j := by
  induction j with
  | zero => rfl
  | succ j ih =>
    rw [Function.iterate_succ_apply', ih (by omega)]
    have hp := padLen_lt n
    have hfill := window_eq_fill hq hn (show 16 * j < padLen n by omega)
    have hqlen : q.length = padLen n := by
      rw [hq, length_pad, List.length_take, Nat.min_eq_left hn]
    have htake : q.take (16 * (j + 1)) = q.take (16 * j) ++ (q.drop (16 * j)).take 16 := by
      rw [show 16 * (j + 1) = 16 * j + 16 by omega, List.take_add]
    have hmap : ecbMap (blockTransform enc s.rk) (q.take (16 * (j + 1))) =
        ecbMap (blockTransform enc s.rk) (q.take (16 * j)) ++
          bytesOfBlock (blockTransform enc s.rk (blockOfBytes ((q.drop (16 * j)).take 16))) := by
      have hw : ((q.drop (16 * j)).take 16).length = 16 := by
        rw [List.length_take, List.length_drop]; omega
      have hl : (q.take (16 * j)).length % 16 = 0 := by
        rw [List.length_take]; omega
      have h1 := ecbMap_cons (blockTransform enc s.rk) (q := (q.drop (16 * j)).take 16) (by omega)
      rw [List.take_of_length_le (l := (q.drop (16 * j)).take 16) (by omega),
        ecbMap_nil_of_lt (q := List.drop 16 _) _ (by rw [List.length_drop]; omega), List.append_nil] at h1
      rw [htake, ecbMap_append _ hl, h1]
    have hdrop : (s.inp.drop (min n (16 * j))).drop (min 16 (n - 16 * j)) = s.inp.drop (min n (16 * (j + 1))) := by
      rw [List.drop_drop]; congr 1; omega
    have hilen : min 16 (n - 16 * j) ≤ (s.inp.drop (min n (16 * j))).length := by
      rw [List.length_drop]; omega
    cases j with
    | zero =>
      have h := ecWindow_eq enc n (ecStart s) (min 16 (n - 0)) ((q.drop 0).take 16) rfl
        (by simpa using hilen) (by simpa using hfill) hm
      refine h.trans ?_
      simp only [afterWindows, ecStart]
      rw [hmap, ← hdrop]
      simp [ecbMap_nil_of_lt]
    | succ i =>
      have hblk : (BitVec.ofNat 29 (i + 1)).toNat = i + 1 := by
        rw [BitVec.toNat_ofNat, Nat.mod_eq_of_lt (by omega)]
      have hsucc : BitVec.ofNat 29 (i + 1 + 1) = BitVec.ofNat 29 (i + 1) + 1 := BitVec.ofNat_add (i + 1) 1
      have hwf := wf_afterWindows enc n q s hm (i + 1)
      have h := ecWindow_eq enc n (afterWindows enc n q s (i + 1)) (min 16 (n - 16 * (i + 1)))
        ((q.drop (16 * (i + 1))).take 16) (by simp only [afterWindows, hblk]) hilen hfill hwf
      refine h.trans ?_
      simp only [afterWindows]
      rw [hmap, ← hdrop, hsucc, List.append_assoc]

/-- The controller on a text of `LEN` bytes, when IN holds them (R172): ENCT on any length, DECT on whole windows. -/
theorem ecRun_eq (enc : Bool) (s : State) (hn : textLen s ≤ s.inp.length) (hm : Memory.wf s.buf = true)
    (ht : ecTotal enc (textLen s) = padLen (textLen s)) :
    ecRun enc s =
      afterWindows enc (textLen s) (pad (s.inp.take (textLen s))) s (padLen (textLen s) / 16) := by
  have h32 : textLen s < 2 ^ 32 := s.len.isLt
  rw [ecRun, ht, show Config.blockBytes = 16 from rfl]
  exact ecWindow_iterate enc s (textLen s) _ rfl hn h32 hm _ (by omega)

/-- DECT is given whole windows, which need no padding (R172). -/
theorem ecTotal_of_whole {n : Nat} (h : n % 16 = 0) (enc : Bool) : ecTotal enc n = padLen n := by
  have : padLen n = n := by simp only [padLen]; omega
  cases enc
  · exact this.symm
  · rfl

end Sys2Proof.Machine
end

