-- ==== Sys2Proof/Laws/Outcome.lean ====
section
/-! SUPPORT. How a command ends, said once: the first error, the missing bytes, or the command's effect; and what a step does
with the host's next action. -/

namespace Sys2Proof.Machine

/-! ### The checks -/

@[simp] theorem whenDiag_true {s : State} (h : s.diag = true) (k : Result) : whenDiag s k = k := if_pos h

@[simp] theorem whenDiag_false {s : State} (h : s.diag = false) (k : Result) : whenDiag s k = raise .illegalCommand s := by
  simp [whenDiag, h]

@[simp] theorem whenSchedule_true {s : State} (h : s.rkv = true) (k : Result) : whenSchedule s k = k := if_pos h

@[simp] theorem whenSchedule_false {s : State} (h : s.rkv = false) (k : Result) : whenSchedule s k = raise .noSchedule s := by
  simp [whenSchedule, h]

theorem rotAmount_legal {r : Nat} (h : 1 ≤ r ∧ r ≤ 63) : rotAmount r = some ⟨r, h.1, h.2⟩ := dif_pos h

theorem rotAmount_illegal {r : Nat} (h : ¬(1 ≤ r ∧ r ≤ 63)) : rotAmount r = none := dif_neg h

theorem roundIndex_legal {i : Nat} (h : i ≤ 26) : roundIndex i = some ⟨i, by omega⟩ := dif_pos h

theorem roundIndex_illegal {i : Nat} (h : ¬ i ≤ 26) : roundIndex i = none := dif_neg h

/-! ### What a command does when it has no error and its bytes are there -/

/-- LDBLK's effect. -/
def ldblkEffect (s : State) : State :=
  ecLoad { s with
    cnt := 0
    buf := Memory.writeBytes s.buf 0 (s.inp.take Config.blockBytes)
    inp := s.inp.drop Config.blockBytes }

/-- The effect of each command, before its end is recorded in `ERR` and `BUSY`. -/
def effect : Instr → State → State
  | .keyexp, s => ksRun s
  | .enct, s => ecRun true s
  | .dect, s => ecRun false s
  | .ror r, s =>
    match rotAmount r with
    | some a => { s with l := ror64 s.l a }
    | none => s
  | .rol r, s =>
    match rotAmount r with
    | some a => { s with l := rol64 s.l a }
    | none => s
  | .rndf i, s =>
    match roundIndex i with
    | some j => s.withBlock (roundFwd s.block (s.rk.get j))
    | none => s
  | .rndi i, s =>
    match roundIndex i with
    | some j => s.withBlock (roundInv s.block (s.rk.get j))
    | none => s
  | .encb, s => encryptRounds s
  | .decb, s => decryptRounds s
  | .ldblk, s => ldblkEffect s
  | .stblk, s => putBuf (ecStore { s with cnt := 0 })

/-- How every command ends: its first error is raised; or, with no error and its bytes on IN, it succeeds with its effect; or
it never completes. -/
theorem exec_eq (i : Instr) (s : State) :
    exec i s =
      match firstError i s with
      | some e => raise e s
      | none => if bytesTaken s i ≤ s.inp.length then succeed (effect i s) else .fault .inputStarved := by
  cases i with
  | keyexp => simp [exec, execKeyexp, firstError, needsDiag, argLegal, needsSchedule, bytesTaken, effect]
  | enct =>
    cases hr : s.rkv
    · simp [exec, execEnct, firstError, needsDiag, argLegal, needsSchedule, hr]
    · simp [exec, execEnct, firstError, needsDiag, argLegal, needsSchedule, bytesTaken, effect, hr, whenInput, textLen]
      rfl
  | dect =>
    cases hr : s.rkv
    · simp [exec, execDect, firstError, needsDiag, argLegal, needsSchedule, hr]
    · by_cases hl : s.len.toNat % 16 = 0
      · simp [exec, execDect, firstError, needsDiag, argLegal, needsSchedule, bytesTaken, effect, hr, whenInput, textLen,
          whenWholeWindows, Config.blockBytes, hl]
        rfl
      · simp [exec, execDect, firstError, needsDiag, argLegal, needsSchedule, hr, textLen, whenWholeWindows,
          Config.blockBytes, hl]
  | ror r =>
    cases hd : s.diag
    · simp [exec, execRor, firstError, needsDiag, hd]
    · by_cases hr : 1 ≤ r ∧ r ≤ 63
      · simp [exec, execRor, firstError, needsDiag, argLegal, needsSchedule, bytesTaken, effect, hd, withRotAmount,
          rotAmount_legal hr, hr]
      · have h : argLegal (.ror r) = false := by simp [argLegal]; omega
        simp [exec, execRor, firstError, needsDiag, h, hd, withRotAmount, rotAmount_illegal hr]
  | rol r =>
    cases hd : s.diag
    · simp [exec, execRol, firstError, needsDiag, hd]
    · by_cases hr : 1 ≤ r ∧ r ≤ 63
      · simp [exec, execRol, firstError, needsDiag, argLegal, needsSchedule, bytesTaken, effect, hd, withRotAmount,
          rotAmount_legal hr, hr]
      · have h : argLegal (.rol r) = false := by simp [argLegal]; omega
        simp [exec, execRol, firstError, needsDiag, h, hd, withRotAmount, rotAmount_illegal hr]
  | rndf k =>
    cases hd : s.diag
    · simp [exec, execRndf, firstError, needsDiag, hd]
    · by_cases hk : k ≤ 26
      · cases hr : s.rkv <;>
          simp [exec, execRndf, firstError, needsDiag, argLegal, needsSchedule, bytesTaken, effect, hd, withRoundIndex,
            roundIndex_legal hk, hk, hr]
      · have h : argLegal (.rndf k) = false := by simp [argLegal]; omega
        simp [exec, execRndf, firstError, needsDiag, h, hd, withRoundIndex, roundIndex_illegal hk]
  | rndi k =>
    cases hd : s.diag
    · simp [exec, execRndi, firstError, needsDiag, hd]
    · by_cases hk : k ≤ 26
      · cases hr : s.rkv <;>
          simp [exec, execRndi, firstError, needsDiag, argLegal, needsSchedule, bytesTaken, effect, hd, withRoundIndex,
            roundIndex_legal hk, hk, hr]
      · have h : argLegal (.rndi k) = false := by simp [argLegal]; omega
        simp [exec, execRndi, firstError, needsDiag, h, hd, withRoundIndex, roundIndex_illegal hk]
  | encb =>
    cases hd : s.diag <;> cases hr : s.rkv <;>
      simp [exec, execEncb, firstError, needsDiag, argLegal, needsSchedule, bytesTaken, effect, hd, hr]
  | decb =>
    cases hd : s.diag <;> cases hr : s.rkv <;>
      simp [exec, execDecb, firstError, needsDiag, argLegal, needsSchedule, bytesTaken, effect, hd, hr]
  | ldblk =>
    cases hd : s.diag <;>
      simp [exec, execLdblk, firstError, needsDiag, argLegal, needsSchedule, bytesTaken, effect, ldblkEffect, hd, whenInput,
        Config.blockBytes]
  | stblk =>
    cases hd : s.diag <;>
      simp [exec, execStblk, firstError, needsDiag, argLegal, needsSchedule, bytesTaken, effect, hd]

/-- Which error is the first, and why. -/
theorem firstError_cases {i : Instr} {s : State} {e : ErrKind} (h : firstError i s = some e) :
    (e = .illegalCommand ∧ needsDiag i = true ∧ s.diag = false) ∨
    (e = .badOperand ∧ argLegal i = false) ∨
    (e = .noSchedule ∧ needsSchedule i = true ∧ s.rkv = false) ∨
    (e = .invalidLength ∧ i = .dect ∧ s.len.toNat % 16 ≠ 0) := by
  unfold firstError at h
  split at h
  · cases h; exact .inl ⟨rfl, by assumption⟩
  · split at h
    · cases h; exact .inr (.inl ⟨rfl, by assumption⟩)
    · split at h
      · cases h; exact .inr (.inr (.inl ⟨rfl, by assumption⟩))
      · split at h
        · cases h; exact .inr (.inr (.inr ⟨rfl, by assumption⟩))
        · cases h

/-- Everything a command that answers a next state can have done. -/
theorem exec_next_cases {i : Instr} {s t : State} (h : exec i s = .next t) :
    (∃ e : ErrKind, firstError i s = some e ∧ t = endCommand e.code s) ∨
    (firstError i s = none ∧ bytesTaken s i ≤ s.inp.length ∧ t = endCommand okCode (effect i s)) := by
  rw [exec_eq] at h
  cases hf : firstError i s with
  | some e =>
    rw [hf] at h
    exact .inl ⟨e, rfl, (Host.Outcome.next.inj h).symm⟩
  | none =>
    rw [hf] at h
    by_cases hb : bytesTaken s i ≤ s.inp.length
    · simp only [hb, if_true] at h
      exact .inr ⟨rfl, hb, (Host.Outcome.next.inj h).symm⟩
    · simp [hb] at h

/-! ### The effect of each command on the fields it does not write -/

/-- What the controller leaves alone. -/
theorem ecWindow_frame (enc : Bool) (n : Nat) (s : State) :
    ecWindow enc n s =
      { s with
        l := (ecWindow enc n s).l, r := (ecWindow enc n s).r, inp := (ecWindow enc n s).inp
        out := (ecWindow enc n s).out, buf := (ecWindow enc n s).buf, cnt := (ecWindow enc n s).cnt
        blk := (ecWindow enc n s).blk, rnd := (ecWindow enc n s).rnd } := by
  simp only [ecWindow, ecRounds_eq]
  dsimp only [ecDrain, putBuf, ecStore, ecLoad, ecFill]

theorem ecRun_frame (enc : Bool) (s : State) :
    ecRun enc s =
      { s with
        l := (ecRun enc s).l, r := (ecRun enc s).r, inp := (ecRun enc s).inp, out := (ecRun enc s).out
        buf := (ecRun enc s).buf, cnt := (ecRun enc s).cnt, blk := (ecRun enc s).blk, rnd := (ecRun enc s).rnd } := by
  unfold ecRun
  generalize ecTotal enc (textLen s) / Config.blockBytes = m
  generalize textLen s = n
  induction m with
  | zero => rfl
  | succ m ih =>
    rw [Function.iterate_succ_apply', ecWindow_frame]
    generalize (ecWindow enc n)^[m] (ecStart s) = u at ih ⊢
    rw [ih]

/-! ### Steps -/

theorem step_act {s : State} {a : HostAct} {rest : List HostAct} (h : s.host = a :: rest) :
    step s = act a { s with host := rest } := by
  simp [step, h]

theorem regOf_cmd_iff (n : RegNum) : regOf n = .cmd ↔ n = cmdNum := by
  revert n; decide

theorem regOf_status_iff (n : RegNum) : regOf n = .status ↔ n = 0x01#6 := by
  revert n; decide

end Sys2Proof.Machine
end

