-- ==== Sys2Proof/Laws/Frame.lean ====
section
/-! SUPPORT. What the commands leave alone, said once for all of them: the registers no command writes, and the canonical form
of the block buffer. -/

namespace Sys2Proof.Machine

/-! ### The canonical form of the block buffer -/

theorem wf_memWrite {m : Memory} {off : Nat} (v : Word) (h : Memory.wf m = true) (ho : off ≤ 8) :
    Memory.wf (memWrite m off v) = true :=
  Memory.wf_writeBytes _ h (by rw [length_leBytes]; omega)

theorem wf_ecFill (n : Nat) (s : State) (h : Memory.wf s.buf = true) : Memory.wf (ecFill n s).buf = true := by
  dsimp only [ecFill]
  refine Memory.wf_writeBytes _ h ?_
  simp [Config.blockBytes]
  omega

theorem wf_ecStore (s : State) (h : Memory.wf s.buf = true) : Memory.wf (ecStore s).buf = true :=
  wf_memWrite _ (wf_memWrite _ h (by omega)) (by omega)

theorem wf_ecWindow (enc : Bool) (n : Nat) (s : State) (h : Memory.wf s.buf = true) :
    Memory.wf (ecWindow enc n s).buf = true := by
  simp only [ecWindow, ecRounds_eq, ecDrain, putBuf]
  exact wf_ecStore _ (wf_ecFill n s h)

theorem wf_ecRun (enc : Bool) (s : State) (h : Memory.wf s.buf = true) : Memory.wf (ecRun enc s).buf = true := by
  unfold ecRun
  generalize ecTotal enc (textLen s) / Config.blockBytes = m
  generalize textLen s = n
  induction m with
  | zero => exact h
  | succ m ih =>
    rw [Function.iterate_succ_apply']
    exact wf_ecWindow _ _ _ ih

/-- Every command's effect keeps the canonical form of `BUF`. -/
theorem wf_effect (i : Instr) (s : State) (h : Memory.wf s.buf = true) : Memory.wf (effect i s).buf = true := by
  cases i with
  | keyexp => simp only [effect, ksRun_eq]; exact h
  | enct => exact wf_ecRun _ _ h
  | dect => exact wf_ecRun _ _ h
  | ror r => simp only [effect]; split <;> exact h
  | rol r => simp only [effect]; split <;> exact h
  | rndf i => simp only [effect]; split <;> exact h
  | rndi i => simp only [effect]; split <;> exact h
  | encb => simp only [effect, encryptRounds_eq]; exact h
  | decb => simp only [effect, decryptRounds_eq]; exact h
  | ldblk =>
    dsimp only [effect, ldblkEffect, ecLoad]
    exact Memory.wf_writeBytes _ h (by simp [Config.blockBytes])
  | stblk =>
    simp only [effect, putBuf]
    exact wf_ecStore { s with cnt := 0 } h

/-! ### The registers -/

/-- The fields no command writes, and the two KEYEXP alone writes. -/
theorem effect_frame (i : Instr) (s : State) :
    (effect i s).diag = s.diag ∧ (effect i s).len = s.len ∧ (effect i s).key = s.key ∧ (effect i s).host = s.host ∧
      (effect i s).rdata = s.rdata ∧ (i ≠ .keyexp → (effect i s).rk = s.rk ∧ (effect i s).rkv = s.rkv) := by
  cases i with
  | keyexp => simp only [effect, ksRun_eq]; simp
  | enct => simp only [effect]; rw [ecRun_frame]; simp
  | dect => simp only [effect]; rw [ecRun_frame]; simp
  | ror r => simp only [effect]; split <;> simp
  | rol r => simp only [effect]; split <;> simp
  | rndf i => simp only [effect]; split <;> simp
  | rndi i => simp only [effect]; split <;> simp
  | encb => simp only [effect, encryptRounds_eq]; simp
  | decb => simp only [effect, decryptRounds_eq]; simp
  | ldblk => simp [effect, ldblkEffect]
  | stblk => simp [effect]

end Sys2Proof.Machine
end

