-- ==== Sys2Proof/Laws/PerInstr.lean ====
section
/-! SUPPORT. A fact of each command as syntax, one lemma per constructor: its word has the opcode of its row in bits 7:0, its
argument in bits 13:8 and zeros above (30_encoding.md rules R71 and R73). -/

namespace Sys2Proof.Laws

/-- The fields of a command word made from an opcode and an argument that fit their fields. -/
theorem fields_commandWord {opc arg : Nat} (ho : opc < 256) (ha : arg < 64) :
    opcOf (commandWord opc arg) = opc ∧ argOf (commandWord opc arg) = arg ∧ rsvOf (commandWord opc arg) = 0 := by
  have h : (commandWord opc arg).toNat = opc + 256 * arg := by
    rw [commandWord, BitVec.toNat_ofNat]
    omega
  simp only [opcOf, argOf, rsvOf, BitVec.extractLsb'_toNat, h, Nat.shiftRight_eq_div_pow]
  omega

namespace WordFields

/-- The `OPC` column of R73. -/
def opc : Instr → Nat
  | .keyexp => 0x01
  | .enct => 0x02
  | .dect => 0x03
  | .ror _ => 0x10
  | .rol _ => 0x11
  | .rndf _ => 0x12
  | .rndi _ => 0x13
  | .encb => 0x14
  | .decb => 0x15
  | .ldblk => 0x16
  | .stblk => 0x17

/-- The `ARG` column of R73. -/
def arg : Instr → Nat
  | .keyexp => 0
  | .enct => 0
  | .dect => 0
  | .ror r => r
  | .rol r => r
  | .rndf i => i
  | .rndi i => i
  | .encb => 0
  | .decb => 0
  | .ldblk => 0
  | .stblk => 0

/-- The word of a well-formed command has these three fields. -/
def Statement (i : Instr) : Prop :=
  wellFormed i = true → opcOf (encode i) = opc i ∧ argOf (encode i) = arg i ∧ rsvOf (encode i) = 0

theorem keyexp : Statement .keyexp := fun _ => fields_commandWord (by decide) (by decide)

theorem enct : Statement .enct := fun _ => fields_commandWord (by decide) (by decide)

theorem dect : Statement .dect := fun _ => fields_commandWord (by decide) (by decide)

theorem ror (r : Nat) : Statement (.ror r) := fun h =>
  fields_commandWord (by decide) (of_decide_eq_true h)

theorem rol (r : Nat) : Statement (.rol r) := fun h =>
  fields_commandWord (by decide) (of_decide_eq_true h)

theorem rndf (i : Nat) : Statement (.rndf i) := fun h =>
  fields_commandWord (by decide) (of_decide_eq_true h)

theorem rndi (i : Nat) : Statement (.rndi i) := fun h =>
  fields_commandWord (by decide) (of_decide_eq_true h)

theorem encb : Statement .encb := fun _ => fields_commandWord (by decide) (by decide)

theorem decb : Statement .decb := fun _ => fields_commandWord (by decide) (by decide)

theorem ldblk : Statement .ldblk := fun _ => fields_commandWord (by decide) (by decide)

theorem stblk : Statement .stblk := fun _ => fields_commandWord (by decide) (by decide)

end WordFields

end Sys2Proof.Laws
end

