-- ==== Sys2Proof/Laws/Step.lean ====
section
/-! SUPPORT. Everything a step, a `CMD` write and a plain register write can do, each said once. -/

namespace Sys2Proof.Machine

/-- What a plain register write leaves alone: `RK`, `ERR`, `BUSY`, `BUF`; and `KEY` and `RKV`, unless it is a `KEY` write,
which clears `RKV` (R191, R31, R32). -/
theorem writeReg_frame (s : State) (v : Word) (g : Reg) :
    (writeReg s v g).rk = s.rk ∧ (writeReg s v g).err = s.err ∧ (writeReg s v g).busy = s.busy ∧
      (writeReg s v g).buf = s.buf ∧
      ((∀ i, g ≠ .key i) → (writeReg s v g).rkv = s.rkv ∧ (writeReg s v g).key = s.key) ∧
      ((∃ i, g = .key i) → (writeReg s v g).rkv = false) := by
  cases g <;> simp [writeReg]

/-- A `CMD` write that answers a next state: an illegal word changed `ERR` and nothing else but `BUSY`, or the command the word
encodes ran. -/
theorem issue_next_cases {w : Word} {s t : State} (h : issue w s = .next t) :
    (∃ e, decode w = .error e ∧ t = endCommand 3 s) ∨ ∃ i, decode w = .ok i ∧ exec i (startCommand s) = .next t := by
  unfold issue at h
  split at h
  · exact .inr ⟨_, by assumption, h⟩
  · exact .inl ⟨_, by assumption, (Host.Outcome.next.inj h).symm⟩

/-- Everything a step that answers a next state can have been. -/
theorem step_next_cases {s t : State} (h : step s = .next t) :
    (s.host = [] ∧ t = s) ∨
    (∃ n rest, s.host = .rd n :: rest ∧
      t = { s with host := rest, rdata := s.rdata ++ [readReg { s with host := rest } (regOf n)] }) ∨
    (∃ n v rest, s.host = .wr n v :: rest ∧ s.busy = false ∧ n ≠ cmdNum ∧
      t = writeReg { s with host := rest } v (regOf n)) ∨
    (∃ w rest, s.host = .wr cmdNum w :: rest ∧ s.busy = false ∧ issue w { s with host := rest } = .next t) ∨
    (∃ rest, s.host = .reset :: rest ∧ t = applyReset { s with host := rest }) ∨
    (∃ b rest, s.host = .present b :: rest ∧ t = { s with host := rest, inp := s.inp ++ b }) ∨
    (∃ rest, s.host = .withdraw :: rest ∧ t = { s with host := rest, inp := [] }) := by
  unfold step at h
  split at h
  · exact .inl ⟨by assumption, (Host.Outcome.next.inj h).symm⟩
  · rename_i a rest hh
    cases a with
    | rd n =>
      simp only [act, readAct] at h
      split at h
      · cases h
      · exact .inr (.inl ⟨n, rest, hh, (Host.Outcome.next.inj h).symm⟩)
    | wr n v =>
      simp only [act, writeAct] at h
      split at h
      · cases h
      · rename_i hb
        have hb : s.busy = false := by simpa using hb
        split at h
        · rename_i hc
          obtain rfl := (regOf_cmd_iff n).1 hc
          exact .inr (.inr (.inr (.inl ⟨v, rest, hh, hb, h⟩)))
        · rename_i hc
          exact .inr (.inr (.inl ⟨n, v, rest, hh, hb, fun e => hc ((regOf_cmd_iff n).2 e),
            (Host.Outcome.next.inj h).symm⟩))
    | reset => exact .inr (.inr (.inr (.inr (.inl ⟨rest, hh, (Host.Outcome.next.inj h).symm⟩))))
    | present b => exact .inr (.inr (.inr (.inr (.inr (.inl ⟨b, rest, hh, (Host.Outcome.next.inj h).symm⟩)))))
    | withdraw => exact .inr (.inr (.inr (.inr (.inr (.inr ⟨rest, hh, (Host.Outcome.next.inj h).symm⟩)))))

end Sys2Proof.Machine
end

