-- ==== Sys2Proof/Tests/Slice0.lean ====
section
/-! SUPPORT. The model's own tests.  Words are written out from the encodings of spec/opcode_table.json and 30_encoding.md rule
R71; results are those of 95_test_vectors.md, whose section is named in each comment.  The last part shows, for each statement
with hypotheses, states and operands that meet them all. -/

namespace Sys2Proof.Tests

open Sys2Proof Sys2Proof.Machine

/-! ### Helpers -/

/-- A field of the next state, if there is one. -/
def after {α : Type} (r : Result) (f : State → α) : Option α :=
  match r with
  | .next t => some (f t)
  | .fault _ => none
  | .refused _ => none

/-- The idle core in diagnostic mode, no schedule, with `(L, R)` = `(l, r)`. -/
def diagState (l r : Word) : State := { State.reset with diag := true, l := l, r := r }

/-- The same with the given round keys, valid. -/
def keyed (rk : RoundKeys) (l r : Word) : State := { diagState l r with rk := rk, rkv := true }

/-- The schedule of the all-zero key (95_test_vectors.md V3a). -/
def rkZero : RoundKeys := keySchedule (Vector.replicate 4 0)

/-- The key of 95_test_vectors.md V3b. -/
def keyB : Key := #v[0x0706050403020100#64, 0x0F0E0D0C0B0A0908#64, 0x1716151413121110#64, 0x1F1E1D1C1B1A1918#64]

/-- Normal mode, the given round keys, `LEN` and IN. -/
def textState (rk : RoundKeys) (n : BitVec 32) (inp : List Byte) : State :=
  { State.reset with rk := rk, rkv := true, len := n, inp := inp }

/-- The bytes 00 to 0F. -/
def count16 : List Byte :=
  [0x00#8, 0x01#8, 0x02#8, 0x03#8, 0x04#8, 0x05#8, 0x06#8, 0x07#8, 0x08#8, 0x09#8, 0x0A#8, 0x0B#8, 0x0C#8, 0x0D#8, 0x0E#8,
    0x0F#8]

/-- The first output window of V5b line 2. -/
def cipherA : List Byte :=
  [0x79#8, 0xCB#8, 0x38#8, 0xC9#8, 0x7B#8, 0xC7#8, 0x4A#8, 0x24#8, 0x49#8, 0x4C#8, 0xB8#8, 0xCE#8, 0xA4#8, 0x78#8, 0xF3#8,
    0x30#8]

/-! ### Well-formedness: an argument that does not fit the 6-bit `ARG` is refused -/

theorem test_wellFormed_ror : wellFormed (.ror 63) = true ∧ wellFormed (.ror 64) = false := by decide
theorem test_wellFormed_rol : wellFormed (.rol 0) = true ∧ wellFormed (.rol 64) = false := by decide
theorem test_wellFormed_rndf : wellFormed (.rndf 63) = true ∧ wellFormed (.rndf 64) = false := by decide
theorem test_wellFormed_rndi : wellFormed (.rndi 27) = true ∧ wellFormed (.rndi 100) = false := by decide

/-! ### Decoding: one word of every row, bit by bit (opcode_table.json "encoding") -/

theorem test_decode_keyexp :
    decode 0b0000000000000000000000000000000000000000000000000000000000000001#64 = .ok .keyexp := by decide
theorem test_decode_enct :
    decode 0b0000000000000000000000000000000000000000000000000000000000000010#64 = .ok .enct := by decide
theorem test_decode_dect :
    decode 0b0000000000000000000000000000000000000000000000000000000000000011#64 = .ok .dect := by decide
theorem test_decode_ror :
    decode 0b0000000000000000000000000000000000000000000000000010000100010000#64 = .ok (.ror 33) := by decide
theorem test_decode_rol :
    decode 0b0000000000000000000000000000000000000000000000000011111100010001#64 = .ok (.rol 63) := by decide
theorem test_decode_rndf :
    decode 0b0000000000000000000000000000000000000000000000000001101000010010#64 = .ok (.rndf 26) := by decide
theorem test_decode_rndi :
    decode 0b0000000000000000000000000000000000000000000000000000010000010011#64 = .ok (.rndi 4) := by decide
theorem test_decode_encb :
    decode 0b0000000000000000000000000000000000000000000000000000000000010100#64 = .ok .encb := by decide
theorem test_decode_decb :
    decode 0b0000000000000000000000000000000000000000000000000000000000010101#64 = .ok .decb := by decide
theorem test_decode_ldblk :
    decode 0b0000000000000000000000000000000000000000000000000000000000010110#64 = .ok .ldblk := by decide
theorem test_decode_stblk :
    decode 0b0000000000000000000000000000000000000000000000000000000000010111#64 = .ok .stblk := by decide

/-- Words of no command (R75), each rejected by the name of its cause. -/
theorem test_decode_rejects :
    decode 0x0000000000004001#64 = .error .reservedBits ∧ decode 0x8000000000000010#64 = .error .reservedBits ∧
    decode 0x0000000000000000#64 = .error .unknownOpcode ∧ decode 0x0000000000000004#64 = .error .unknownOpcode ∧
    decode 0x000000000000000F#64 = .error .unknownOpcode ∧ decode 0x0000000000000018#64 = .error .unknownOpcode ∧
    decode 0x00000000000000FF#64 = .error .unknownOpcode ∧ decode 0x0000000000000102#64 = .error .argNotZero ∧
    decode 0x0000000000002014#64 = .error .argNotZero := by decide

/-- A row's word given as a number, the value above the row's bits dropped. -/
theorem test_decodeTableWord :
    decodeTableWord 64 0x0810 = some (.ror 8) ∧ decodeTableWord 64 (2 ^ 64 + 1) = some .keyexp ∧
    decodeTableWord 64 0x18 = none := by decide

/-! ### One command at a time -/

/-- V1: 0x0123456789ABCDEF rotated right by 8; `w` = 0x0810. -/
theorem test_ror_8 :
    after (step ({ diagState 0x0123456789ABCDEF#64 0 with host := [.wr cmdNum 0x0810#64] })) (fun t => (t.l, t.err)) =
      some (0xEF0123456789ABCD#64, 0#4) := by decide

/-- P3 lines 5 to 9: ROR 0 is IllegalCommand in normal mode, BadOperand in diagnostic mode. -/
theorem test_ror_0 :
    after (exec (.ror 0) State.reset) (·.err) = some 3#4 ∧ after (exec (.ror 0) (diagState 1 2)) (·.err) = some 5#4 := by
  decide +kernel

/-- V1: 0x0123456789ABCDEF rotated left by 3; `R` keeps its value. -/
theorem test_rol_3 :
    after (exec (.rol 3) (diagState 0x0123456789ABCDEF#64 7)) (fun t => (t.l, t.r)) = some (0x091A2B3C4D5E6F78#64, 7#64) := by
  decide +kernel

/-- V1: 0x8000000000000000 rotated left by 63. -/
theorem test_rol_63 :
    after (exec (.rol 63) (diagState 0x8000000000000000#64 0)) (·.l) = some 0x4000000000000000#64 := by decide

/-- V2 line 7: RNDF 0 with the schedule of V3b. -/
theorem test_rndf_0 :
    after (exec (.rndf 0) (keyed (keySchedule keyB) 0x65736F6874206E49#64 0x202E72656E6F6F70#64)) (fun t => (t.l, t.r)) =
      some (0x6E95E0D0D5E18EDE#64, 0x6FE673FBA69AF55F#64) := by decide

/-- P3 lines 14 to 17: BadOperand comes before NoSchedule. -/
theorem test_rndf_errors :
    after (exec (.rndf 27) (diagState 0 0)) (·.err) = some 5#4 ∧ after (exec (.rndf 0) (diagState 0 0)) (·.err) = some 4#4 := by
  decide +kernel

/-- V2 line 2 backward: (1, 9) under the subkey 0 is (0, 1); the source's literal formula would give `L` = 0xFF (C2). -/
theorem test_rndi_0 :
    after (exec (.rndi 0) (keyed (Vector.replicate 27 0) 1 9)) (fun t => (t.l, t.r)) = some (0#64, 1#64) := by decide

/-- V2 line 6 backward: the subtraction borrows. -/
theorem test_rndi_26 :
    after (exec (.rndi 26) (keyed (Vector.replicate 27 0x0F1E2D3C4B5A6978#64) 0xE2C3F0E19687B4A5#64 0x1426242224262422#64))
      (fun t => (t.l, t.r)) = some (0x0123456789ABCDEF#64, 0xFEDCBA9876543210#64) := by decide

/-- V3a: the first and last round keys of the zero key, `STATUS`, and the hidden registers. -/
theorem test_keyexp_zero :
    after (exec .keyexp State.reset) (fun t => [t.rk[4], t.rk[13], t.rk[26], statusWord t]) =
      some [0x50#64, 0x6C9A5F02D4AC8FC8#64, 0xD9637036EE0D9550#64, 0x02#64] ∧
    after (exec .keyexp State.reset) (fun t => (t.ksA.toList, t.ksI)) =
      some ([0xF6E9A653BA07C82B#64, 0x1AD58560014F882E#64, 0x10AA5542345FAEF9#64], 26) := by decide

/-- V3d: a key that tells the four key words apart. -/
theorem test_keyexp_1234 :
    after (exec .keyexp { State.reset with key := #v[1, 2, 3, 4] }) (fun t => (t.rk[1], t.rk[2], t.rk[3], t.rk[26])) =
      some (0x0200000000000009#64, 0x1500000000000040#64, 0xB100000000000242#64, 0x631B53C89BE2186C#64) := by decide

/-- V4b, key V3b, line 3: ENCB. -/
theorem test_encb :
    after (exec .encb (keyed (keySchedule keyB) 0x65736F6874206E49#64 0x202E72656E6F6F70#64)) (fun t => (t.l, t.r, t.rnd)) =
      some (0xB81ABD05632693B8#64, 0x5AACBC55D1A4157D#64, 26) := by decide +kernel

/-- V4b, key V3b, line 3, the last two columns: DECB. -/
theorem test_decb :
    after (exec .decb (keyed (keySchedule keyB) 0x65736F6874206E49#64 0x202E72656E6F6F70#64)) (fun t => (t.l, t.r, t.rnd)) =
      some (0xE4BFCB82EF8071C6#64, 0x1CB2288AD5DA79E3#64, 0) := by decide +kernel

/-- V5b line 2: "A" under the zero key; a byte queued behind it stays in IN. -/
theorem test_enct_A :
    after (exec .enct (textState rkZero 1 [0x41#8, 0x42#8])) (fun t => (t.out, t.inp, t.l, t.r)) =
      some (cipherA, [0x42#8], 0x244AC77BC938CB79#64, 0x30F378A4CEB84C49#64) := by decide +kernel

/-- P3 lines 33 and 4: ENCT with `LEN` = 0 succeeds; without a schedule it raises NoSchedule. -/
theorem test_enct_0 :
    after (exec .enct (textState rkZero 0 [0x41#8])) (fun t => (t.out, t.inp, t.err)) = some ([], [0x41#8], 0#4) ∧
    after (exec .enct { State.reset with len := 16, inp := count16 }) (fun t => (t.inp.length, t.err)) = some (16, 4#4) := by
  decide +kernel

/-- V5b line 2, the other way: the padding stays. -/
theorem test_dect_A :
    after (exec .dect (textState rkZero 16 cipherA)) (fun t => (t.out, t.l, t.r)) =
      some (0x41#8 :: List.replicate 15 0x20#8, 0x2020202020202041#64, 0x2020202020202020#64) := by decide +kernel

/-- S8: 17 bytes are InvalidLength, and none is taken; `STATUS` = 0x12. -/
theorem test_dect_17 :
    after (exec .dect (textState rkZero 17 (cipherA ++ [0#8]))) (fun t => (statusWord t, t.inp.length, t.out)) =
      some (0x12#64, 17, []) := by decide

/-- P4 lines 3 to 5. -/
theorem test_ldblk :
    after (exec .ldblk { diagState 0 0 with inp := count16 ++ [0xFF#8] }) (fun t => (t.l, t.r, t.inp)) =
      some (0x0706050403020100#64, 0x0F0E0D0C0B0A0908#64, [0xFF#8]) := by decide

/-- P4 line 6; `BUF` is in canonical form, its byte 0 being 0. -/
theorem test_stblk :
    after (exec .stblk (diagState 0x0706050403020100#64 0x0F0E0D0C0B0A0908#64)) (fun t => (t.out, t.buf.length)) =
      some (count16, 15) := by decide

/-! ### Registers, reset and the block buffer -/

/-- P3 lines 52, 53, 50: `LEN` and `CTRL` drop the upper bits. -/
theorem test_write_drops :
    (writeReg State.reset 0x0000001FFFFFFFFF#64 (regOf 0x03#6)).len = 0xFFFFFFFF#32 ∧
    (writeReg (diagState 0 0) 0xFFFFFFFFFFFFFFFE#64 (regOf 0x00#6)).diag = false := by decide

/-- P3 lines 37, 38 and 42 to 44: a `KEY` write clears `RKV` and leaves `RK`; `RK` ignores a write. -/
theorem test_key_write :
    (writeReg (keyed rkZero 0 0) 0 (regOf 0x04#6)).rkv = false ∧
    readReg (writeReg (keyed rkZero 0 0) 0 (regOf 0x04#6)) (regOf 0x22#6) = 1#64 ∧
    readReg (writeReg (keyed rkZero 0 0) 5 (regOf 0x22#6)) (regOf 0x22#6) = 1#64 := by decide

/-- The ends of the ranges of R29. -/
theorem test_register_map :
    regOf 0x04#6 = .key 0 ∧ regOf 0x07#6 = .key 3 ∧ regOf 0x08#6 = .l ∧ regOf 0x09#6 = .r ∧ regOf 0x0A#6 = .reserved ∧
    regOf 0x1F#6 = .reserved ∧ regOf 0x20#6 = .rk 0 ∧ regOf 0x3A#6 = .rk 26 ∧ regOf 0x3B#6 = .reserved ∧
    regOf 0x3F#6 = .reserved := by decide

theorem test_reset_memory : Memory.wf State.reset.buf = true := by decide

/-- Writing the byte an unlisted offset reads as removes the entry. -/
theorem test_memory_canonical : Memory.write (Memory.write [] 3 5#8) 3 0#8 = [] := by decide

/-- The pending write of `withFetchWord` is the next step, on the reset state. -/
theorem test_withFetchWord :
    after (step (State.reset.withFetchWord 64 0x0001)) (fun t => (t.rkv, t.host)) = some (true, []) := by decide

/-! ### Witnesses: for each statement with hypotheses, states and operands that meet them together, clause by clause -/

/-- Diagnostic mode, the zero key's schedule, `LEN` = 16, and 32 bytes on IN: every command can run. -/
def ready : State := { keyed rkZero 1 2 with len := 16, inp := cipherA ++ count16 }

/-- One command of every row, the arguments at the ends of their ranges. -/
def commands : List Instr :=
  [.keyexp, .enct, .dect, .ror 1, .ror 63, .rol 1, .rol 63, .rndf 0, .rndf 26, .rndi 0, .rndi 26, .encb, .decb, .ldblk, .stblk]

/-- An answer that is a next state. -/
def completes (r : Result) : Bool := (after r fun _ => ()).isSome

theorem exists_of_completes {r : Result} (h : completes r = true) : ∃ t, r = .next t := by
  cases r with
  | next t => exact ⟨t, rfl⟩
  | fault f => cases h
  | refused f => cases h

theorem commands_complete : ∀ i ∈ commands, completes (exec i ready) = true := by decide

/-- Every command answers a next state on `ready`: the hypotheses of the frames, of the result codes and of the repeated
KEYEXP. -/
theorem witness_every_command_completes : Memory.wf ready.buf = true ∧ ∀ i ∈ commands, ∃ t, exec i ready = .next t :=
  ⟨by decide, fun i h => exists_of_completes (commands_complete i h)⟩

theorem witness_DecodeOfEncodeIsSame : wellFormed (.ror 63) = true ∧ wellFormed (.rndi 0) = true ∧ wellFormed .stblk = true := by
  decide

theorem witness_EncodeOfDecodeIsSame : decode 0x3F10#64 = .ok (.ror 63) ∧ decode 0x17#64 = .ok .stblk := by decide

/-- A word of each clause; with each of them pending the idle core has the hypotheses. -/
theorem witness_IllegalWordRaisesIllegalCommand :
    State.reset.busy = false ∧ (0x4001#64).toNat / 2 ^ 14 ≠ 0 ∧ (0x8000000000000010#64).toNat / 2 ^ 14 ≠ 0 ∧
    (∀ o ∈ [0x00, 0x04, 0x0F, 0x18, 0xFF],
      (BitVec.ofNat 64 o).toNat % 256 ∉ [0x01, 0x02, 0x03, 0x10, 0x11, 0x12, 0x13, 0x14, 0x15, 0x16, 0x17]) ∧
    (0x3F17#64).toNat % 256 ∈ [0x01, 0x02, 0x03, 0x14, 0x15, 0x16, 0x17] ∧ (0x3F17#64).toNat / 256 % 64 ≠ 0 := by
  refine ⟨rfl, by decide, by decide, by decide, by decide, by decide⟩

theorem witness_StepRunsDecodedCommand :
    State.reset.busy = false ∧ (State.reset.withFetchWord 64 0x3F10).host = [.wr cmdNum 0x3F10#64] ∧
    decode 0x3F10#64 = .ok (.ror 63) := by decide

theorem witness_StepIdleChangesNothing : State.reset.host = [] := by decide

theorem witness_AccessWhileBusyStops :
    ({ State.reset with busy := true, host := [.rd 0x3F#6] } : State).busy = true ∧ (0x3F#6 : RegNum) ≠ 0x01#6 ∧
    (0x00#6 : RegNum) ≠ 0x01#6 := by decide

theorem witness_RotationsMoveEveryBit : ∃ r q : RotAmount, r.val = 1 ∧ q.val = 63 ∧ 0 < 64 ∧ 63 < 64 :=
  ⟨⟨1, by decide, by decide⟩, ⟨63, by decide, by decide⟩, by decide⟩

theorem witness_RotationLaws : ∃ a b c : RotAmount, a.val = 31 ∧ b.val = 32 ∧ a.val + b.val = c.val :=
  ⟨⟨31, by decide, by decide⟩, ⟨32, by decide, by decide⟩, ⟨63, by decide, by decide⟩, by decide⟩

theorem witness_RoundLinesInIntegers : Config.rorAmt.val = 8 ∧ Config.rolAmt.val = 3 := by decide

theorem witness_KeyScheduleIsTheRecurrence : 0 < 26 ∧ 25 < 26 ∧ 0 < 3 ∧ 0 ≠ 25 % 3 ∧ 2 < 3 ∧ 2 ≠ 25 % 3 := by decide

theorem witness_KeyScheduleFirstEntries :
    (#v[1, 2, 3, 4] : Key)[0] = (#v[1, 2, 3, 5] : Key)[0] ∧ (#v[1, 2, 3, 4] : Key)[1] = (#v[1, 2, 3, 5] : Key)[1] ∧
    (#v[1, 2, 3, 4] : Key)[2] = (#v[1, 2, 3, 5] : Key)[2] ∧ (#v[1, 2, 3, 4] : Key)[3] ≠ (#v[1, 2, 3, 5] : Key)[3] ∧
    (#v[1, 2, 3, 4] : Key)[2] ≠ (#v[1, 2, 0, 4] : Key)[2] ∧ (#v[1, 2, 3, 4] : Key)[1] ≠ (#v[1, 0, 3, 4] : Key)[1] := by decide

theorem witness_ByteCodecIsLittleEndianAndSymmetric : count16.length = 16 ∧ 7 < 8 := by decide

theorem witness_PaddingFillsTheLastWindow : 0 % 16 = 0 ∧ 48 % 16 = 0 ∧ 0 < 1 := by decide

theorem witness_EcbWindowsAreIndependent :
    16 * 1 < padLen (0x47#8 :: count16).length ∧ (count16 ++ count16).length % 16 = 0 ∧
    16 * 1 < (count16 ++ count16).length := by decide

theorem witness_EcbEncryptSplitsAtWindows : count16.length % 16 = 0 ∧ ([] : List Byte).length % 16 = 0 := by decide

/-- Words every command's statement calls malformed: a bit in 63:14, or an `ARG` where none is taken. -/
theorem witness_MalformedWordsRaise :
    (∀ o ∈ [0x01, 0x02, 0x03, 0x10, 0x11, 0x12, 0x13, 0x14, 0x15, 0x16, 0x17],
      (BitVec.ofNat 64 (o + 2 ^ 14)).toNat % 256 = o ∧ (BitVec.ofNat 64 (o + 2 ^ 14)).toNat / 2 ^ 14 ≠ 0) ∧
    (∀ o ∈ [0x01, 0x02, 0x03, 0x14, 0x15, 0x16, 0x17],
      (BitVec.ofNat 64 (o + 256)).toNat % 256 = o ∧ (BitVec.ofNat 64 (o + 256)).toNat / 256 % 64 ≠ 0) := by decide

/-- ROR, ROL, RNDF, RNDI, ENCB, DECB, LDBLK, STBLK: the mode, the argument and the schedule of each clause. -/
theorem witness_diagnostic_commands :
    State.reset.diag = false ∧ ready.diag = true ∧ ready.rkv = true ∧ (diagState 1 2).diag = true ∧
    (diagState 1 2).rkv = false ∧ 1 ≤ 63 ∧ 63 ≤ 63 ∧ 26 < 27 ∧ 26 < 63 ∧ Memory.wf ready.buf = true ∧
    16 ≤ ready.inp.length := by decide

/-- ENCT and DECT: a text of one window, an empty text, no schedule, and a ragged length. -/
theorem witness_text_commands :
    Memory.wf ready.buf = true ∧ ready.rkv = true ∧ ready.len.toNat ≤ ready.inp.length ∧ ready.len.toNat % 16 = 0 ∧
    ready.len.toNat ≠ 0 ∧ (textState rkZero 0 []).len.toNat % 16 = 0 ∧ State.reset.rkv = false ∧
    (textState rkZero 17 []).len.toNat % 16 ≠ 0 ∧ (textState rkZero 17 []).rkv = true := by decide

theorem witness_TextCommandsLeaveTheController :
    Memory.wf ready.buf = true ∧ ready.rkv = true ∧ ready.len.toNat ≤ ready.inp.length ∧ ready.len.toNat % 16 = 0 ∧
    (∃ t, exec .enct ready = .next t) ∧ ∃ t, exec .dect ready = .next t :=
  ⟨by decide, by decide, by decide, by decide, witness_every_command_completes.2 _ (by decide),
    witness_every_command_completes.2 _ (by decide)⟩

theorem witness_command_sequences :
    ready.diag = true ∧ ready.rkv = true ∧ Memory.wf ready.buf = true ∧ 16 ≤ ready.inp.length ∧ 1 ≤ 63 ∧ 26 ≤ 26 := by decide

theorem witness_DectOfEnctIsThePaddedText :
    ∃ s t u : State, Memory.wf s.buf = true ∧ s.rkv = true ∧ s.len.toNat ≤ s.inp.length ∧ padLen s.len.toNat < 2 ^ 32 ∧
      exec .enct s = .next t ∧ Memory.wf u.buf = true ∧ u.rkv = true ∧ u.rk = s.rk ∧ u.len.toNat = padLen s.len.toNat ∧
      u.inp = t.out.drop s.out.length := by
  obtain ⟨t, h⟩ : ∃ t, exec .enct (textState rkZero 1 [0x41#8]) = .next t := exists_of_completes (by decide)
  exact ⟨textState rkZero 1 [0x41#8], t, textState rkZero 16 t.out, rfl, rfl, by decide, by decide, h, rfl, rfl, rfl, rfl, rfl⟩

/-- One command for each error, and the first of several (R217's examples). -/
theorem witness_FirstErrorIsReportedAndChangesOnlyErr :
    firstError (.ror 0) State.reset = some .illegalCommand ∧ firstError (.rndf 27) (diagState 0 0) = some .badOperand ∧
    firstError .dect { State.reset with len := 17 } = some .noSchedule ∧
    firstError .dect (textState rkZero 17 []) = some .invalidLength := by decide

theorem witness_CommandWithoutErrorSucceeds :
    Memory.wf ready.buf = true ∧ ∀ i ∈ commands, firstError i ready = none ∧ bytesTaken ready i ≤ ready.inp.length := by decide

/-- Diagnostic mode and 15 bytes on IN. -/
def starving : State := { diagState 0 0 with inp := count16.take 15 }

theorem witness_StarvedCommandHasNoNextState :
    firstError .ldblk starving = none ∧ starving.inp.length < 16 ∧ exec .ldblk starving = .fault .inputStarved := by
  refine ⟨by decide, by decide, rfl⟩

/-- Each result code is left by some command. -/
theorem witness_ResultCodesPerCommand :
    after (exec .dect (textState rkZero 17 [])) (·.err) = some 1#4 ∧ after (exec .encb State.reset) (·.err) = some 3#4 ∧
    after (exec .enct State.reset) (·.err) = some 4#4 ∧ after (exec (.rol 0) ready) (·.err) = some 5#4 ∧
    after (exec (.rol 63) ready) (·.err) = some 0#4 := by decide

theorem witness_InvalidLengthIsDectOnARaggedLength :
    (textState rkZero 1 []).rkv = true ∧ (textState rkZero 1 []).len.extractLsb' 0 4 ≠ 0 ∧
    after (exec .dect (textState rkZero 1 [])) (·.err) = some 1#4 := by decide

theorem witness_NormalModeHasThreeCommands : State.reset.diag = false := by decide

/-- Two states that differ in every hidden register and in nothing a host can see. -/
theorem witness_HiddenRegistersAreUnobservable :
    let t : State := { ready with
      ksB := 1, ksA := #v[1, 2, 3], ksI := 26, buf := [(15, 0xFF#8)], cnt := 16, blk := 5, rnd := 26 }
    Memory.wf ready.buf = true ∧ Memory.wf t.buf = true ∧ ready.visible = t.visible ∧ ready ≠ t := by decide +kernel

/-- A register number of each clause of the read and of the write, at the ends of the ranges. -/
theorem witness_register_accesses :
    State.reset.busy = false ∧ (0x00#6).toNat = 0x00 ∧ (0x01#6).toNat = 0x01 ∧ (0x02#6).toNat = 0x02 ∧
    (0x03#6).toNat = 0x03 ∧ (0x04#6).toNat = 4 + (0 : Fin 4).val ∧ (0x07#6).toNat = 4 + (3 : Fin 4).val ∧
    (0x08#6).toNat = 0x08 ∧ (0x09#6).toNat = 0x09 ∧ 0x0A ≤ (0x0A#6).toNat ∧ (0x1F#6).toNat ≤ 0x1F ∧
    (0x20#6).toNat = 0x20 + (0 : Fin 27).val ∧ (0x3A#6).toNat = 0x20 + (26 : Fin 27).val ∧ 0x3B ≤ (0x3B#6).toNat ∧
    0x3B ≤ (0x3F#6).toNat := by decide

theorem witness_reset_transaction : ({ ready with host := [.reset, .withdraw] } : State).host = .reset :: [.withdraw] := rfl

/-- Steps that change `RKV`: RESET, KEYEXP, a `KEY` write. -/
theorem witness_RkvChangesOnlyByResetKeyexpOrKeyWrite :
    after (step { ready with host := [.reset] }) (·.rkv) = some false ∧ ready.rkv = true ∧
    after (step { State.reset with host := [.wr cmdNum 1] }) (·.rkv) = some true ∧ State.reset.rkv = false ∧
    after (step { ready with host := [.wr 0x07#6 0] }) (·.rkv) = some false := by decide

/-- Steps that change `RK`: RESET and KEYEXP. -/
theorem witness_RoundKeysChangeOnlyByKeyexpOrReset :
    after (step { ready with host := [.reset] }) (fun t => t.rk == ready.rk) = some false ∧
    after (step { State.reset with host := [.wr cmdNum 1] }) (fun t => t.rk == State.reset.rk) = some false := by decide +kernel

/-- Steps that change `ERR`: RESET, a command, an illegal word. -/
theorem witness_ErrIsWrittenByCommandsAndReset :
    after (step { ready with err := 5, host := [.reset] }) (·.err) = some 0#4 ∧
    after (step { State.reset with host := [.wr cmdNum 0x10] }) (·.err) = some 3#4 ∧
    after (step { State.reset with host := [.wr cmdNum 0x18] }) (·.err) = some 3#4 := by decide

theorem witness_KeyWriteEndsTheSession :
    ({ ready with host := [.wr 0x04#6 5, .wr 0x07#6 5] } : State).busy = false ∧ 4 ≤ (0x04#6).toNat ∧ (0x04#6).toNat ≤ 7 ∧
    4 ≤ (0x07#6).toNat ∧ (0x07#6).toNat ≤ 7 := by decide

/-- A state with a valid schedule that has the invariant, and takes a step. -/
theorem witness_EveryStepKeepsTheInvariant :
    ({ ready with key := Vector.replicate 4 0, host := [.wr cmdNum 0x14] } : State).Inv ∧
    completes (step { ready with key := Vector.replicate 4 0, host := [.wr cmdNum 0x14] }) = true :=
  ⟨by decide +kernel, by decide +kernel⟩

end Sys2Proof.Tests
end

/-! PROOF. Statements about the state: what a step, a command and a register write change in it, and what they leave alone
(10_state.md). -/

namespace Sys2Proof.Machine

/-! ### Steps on a known action of the host -/

theorem step_reset {s : State} {rest : List HostAct} (h : s.host = .reset :: rest) :
    step s = .next (applyReset { s with host := rest }) := step_act h

/-- A `CMD` write on the idle core issues its word (R27). -/
theorem step_cmdWrite {s : State} {w : Word} {rest : List HostAct} (hb : s.busy = false)
    (h : s.host = .wr cmdNum w :: rest) : step s = issue w { s with host := rest } := by
  have hc : regOf cmdNum = .cmd := (regOf_cmd_iff cmdNum).2 rfl
  rw [step_act h]
  simp [act, writeAct, hb, hc]

/-- A write to any other register on the idle core stores (R191). -/
theorem step_regWrite {s : State} {n : RegNum} {v : Word} {rest : List HostAct} (hb : s.busy = false)
    (h : s.host = .wr n v :: rest) (hn : n ≠ cmdNum) :
    step s = .next (writeReg { s with host := rest } v (regOf n)) := by
  have hc : regOf n ≠ .cmd := mt (regOf_cmd_iff n).1 hn
  rw [step_act h]
  simp [act, writeAct, hb, hc]

/-- A write that is answered found the core idle (R240). -/
theorem idle_of_write_next {s t : State} {n : RegNum} {v : Word} {rest : List HostAct} (h : s.host = .wr n v :: rest)
    (hs : step s = .next t) : s.busy = false := by
  rw [step_act h] at hs
  cases hb : s.busy with
  | false => rfl
  | true => simp [act, writeAct, hb] at hs

/-- The numbers of the `KEY` registers (R29). -/
theorem regOf_key_iff (n : RegNum) : (∃ i, regOf n = .key i) ↔ 4 ≤ n.toNat ∧ n.toNat ≤ 7 := by
  revert n; decide

/-- A write to register 4 to 7 on the idle core is a `KEY` write (R29, R31). -/
theorem step_keyWrite {s : State} {n : RegNum} {v : Word} {rest : List HostAct} (hb : s.busy = false)
    (h : s.host = .wr n v :: rest) (h4 : 4 ≤ n.toNat) (h7 : n.toNat ≤ 7) :
    ∃ i, step s = .next (writeReg { s with host := rest } v (.key i)) := by
  obtain ⟨i, hi⟩ := (regOf_key_iff n).2 ⟨h4, h7⟩
  have hn : n ≠ cmdNum := by rintro rfl; exact absurd h4 (by decide)
  exact ⟨i, by rw [step_regWrite hb h hn, hi]⟩

/-- Settles O6: the write is issued and its word decodes. -/
theorem stepRunsDecodedCommand : Obligations.StepRunsDecodedCommand := by
  intro s w i rest hb hh hd
  rw [step_cmdWrite hb hh, issue, hd]
  rfl

/-- Settles O7. -/
theorem stepIdleChangesNothing : Obligations.StepIdleChangesNothing := by
  intro s hh
  simp [step, hh]

/-- Settles O53: the next state is `applyReset`'s, whose fields are those of the reset state. -/
theorem resetZeroesTheCore : Obligations.ResetZeroesTheCore := by
  intro s rest hh
  refine ⟨_, step_reset hh, ?_⟩
  simp [Vector.get]

theorem exec_enct_noSchedule {s : State} (h : s.rkv = false) : exec .enct s = raise .noSchedule s :=
  whenSchedule_false h _

theorem exec_dect_noSchedule {s : State} (h : s.rkv = false) : exec .dect s = raise .noSchedule s :=
  whenSchedule_false h _

/-- Settles O58: a `KEY` write clears `RKV`, which the text commands test first. -/
theorem keyWriteEndsTheSession : Obligations.KeyWriteEndsTheSession := by
  intro s n v rest hb hh h4 h7
  obtain ⟨i, hs⟩ := step_keyWrite hb hh h4 h7
  exact ⟨_, hs, exec_enct_noSchedule rfl, exec_dect_noSchedule rfl, rfl, rfl⟩

/-! ### What a command writes -/

/-- A command that answers a next state leaves in `ERR` the code of its first error (R32, R218). -/
theorem exec_err_of_error {i : Instr} {s t : State} {e : ErrKind} (h : exec i s = .next t)
    (he : firstError i s = some e) : t.err = e.code := by
  rw [exec_eq, he] at h
  rw [← Host.Outcome.next.inj h, endCommand_err]

/-- A command that answers a next state and has no error took its effect (R72 step 8). -/
theorem exec_next_of_no_error {i : Instr} {s t : State} (h : exec i s = .next t) (he : firstError i s = none) :
    t = endCommand okCode (effect i s) := by
  rcases exec_next_cases h with ⟨e, h', -⟩ | ⟨-, -, ht⟩
  · rw [he] at h'; cases h'
  · exact ht

/-- KEYEXP has no error, in either mode (R137). -/
theorem firstError_keyexp (s : State) : firstError .keyexp s = none := by
  simp [firstError, needsDiag, argLegal, needsSchedule]

theorem firstError_enct {s : State} (h : s.rkv = true) : firstError .enct s = none := by
  simp [firstError, needsDiag, argLegal, needsSchedule, h]

theorem firstError_dect {s : State} (h : s.rkv = true) (hl : s.len.toNat % 16 = 0) : firstError .dect s = none := by
  simp [firstError, needsDiag, argLegal, needsSchedule, h, hl]

/-- DECT without an error is given whole windows (R215). -/
theorem whole_of_dect_no_error {s : State} (h : firstError .dect s = none) : textLen s % 16 = 0 := by
  unfold firstError at h
  split_ifs at h with _ _ _ hl
  simpa [textLen] using hl

/-- After KEYEXP `RK` is the schedule of `KEY` and `RKV` is 1 (R31, R137). -/
theorem exec_keyexp_schedule {s t : State} (h : exec .keyexp s = .next t) :
    t.rkv = true ∧ t.rk = keySchedule s.key := by
  rw [exec_next_of_no_error h (firstError_keyexp s)]
  simp [effect, ksRun_eq]

/-- Settles O46: an error changes only `ERR` and `BUSY`, and no effect writes these fields. -/
theorem commandsLeaveControlAndKey : Obligations.CommandsLeaveControlAndKey := by
  intro i s t h
  rcases exec_next_cases h with ⟨e, -, rfl⟩ | ⟨-, -, rfl⟩
  · simp
  · simpa using effect_frame i s

/-! ### Who writes `RKV`, `RK` and `ERR` -/

/-- A step that is no RESET and no KEYEXP keeps `RK`, and unless it is a `KEY` write it keeps `RKV` (R23, R31). -/
theorem step_schedule_cases {s t : State} (h : step s = .next t) :
    (∃ rest, s.host = .reset :: rest) ∨
    (∃ w rest, s.host = .wr cmdNum w :: rest ∧ decode w = .ok .keyexp) ∨
    ((∃ n v rest, s.host = .wr n v :: rest ∧ 4 ≤ n.toNat ∧ n.toNat ≤ 7) ∧ t.rk = s.rk) ∨
    (t.rkv = s.rkv ∧ t.rk = s.rk) := by
  rcases step_next_cases h with ⟨-, rfl⟩ | ⟨n, rest, -, rfl⟩ | ⟨n, v, rest, hh, -, -, rfl⟩ | ⟨w, rest, hh, -, hi⟩ |
    ⟨rest, hh, -⟩ | ⟨b, rest, -, rfl⟩ | ⟨rest, -, rfl⟩
  · exact .inr (.inr (.inr ⟨rfl, rfl⟩))
  · exact .inr (.inr (.inr ⟨rfl, rfl⟩))
  · obtain ⟨hrk, -, -, -, hrkv, -⟩ := writeReg_frame { s with host := rest } v (regOf n)
    by_cases hk : ∃ i, regOf n = .key i
    · exact .inr (.inr (.inl ⟨⟨n, v, rest, hh, (regOf_key_iff n).1 hk⟩, hrk⟩))
    · exact .inr (.inr (.inr ⟨(hrkv fun i hi => hk ⟨i, hi⟩).1, hrk⟩))
  · rcases issue_next_cases hi with ⟨e, -, rfl⟩ | ⟨i, hd, hx⟩
    · exact .inr (.inr (.inr ⟨rfl, rfl⟩))
    · by_cases hk : i = .keyexp
      · exact .inr (.inl ⟨w, rest, hh, hk ▸ hd⟩)
      · obtain ⟨-, -, -, -, -, hrk⟩ := commandsLeaveControlAndKey i _ _ hx
        exact .inr (.inr (.inr ⟨(hrk hk).2, (hrk hk).1⟩))
  · exact .inl ⟨rest, hh⟩
  · exact .inr (.inr (.inr ⟨rfl, rfl⟩))
  · exact .inr (.inr (.inr ⟨rfl, rfl⟩))

/-- Settles O55: each of the three ways is a step on a known action, and `step_schedule_cases` leaves no fourth. -/
theorem rkvChangesOnlyByResetKeyexpOrKeyWrite : Obligations.RkvChangesOnlyByResetKeyexpOrKeyWrite := by
  intro s t h
  refine ⟨fun rest hh => ?_, fun w rest hh hd => ?_, fun n v rest hh h4 h7 => ?_, fun hne => ?_⟩
  · rw [step_reset hh] at h
    rw [← Host.Outcome.next.inj h, applyReset_rkv]
  · rw [stepRunsDecodedCommand s w .keyexp rest (idle_of_write_next hh h) hh hd] at h
    have hk := exec_keyexp_schedule h
    exact hk
  · obtain ⟨i, hs⟩ := step_keyWrite (idle_of_write_next hh h) hh h4 h7
    rw [hs] at h
    rw [← Host.Outcome.next.inj h]
    rfl
  · rcases step_schedule_cases h with hr | hx | ⟨hw, -⟩ | ⟨he, -⟩
    · exact .inl hr
    · exact .inr (.inl hx)
    · exact .inr (.inr hw)
    · exact absurd he hne

/-- Settles O56: of the steps in `step_schedule_cases` only RESET and KEYEXP can change `RK`. -/
theorem roundKeysChangeOnlyByKeyexpOrReset : Obligations.RoundKeysChangeOnlyByKeyexpOrReset := by
  intro s t h hne
  rcases step_schedule_cases h with hr | hx | ⟨-, he⟩ | ⟨-, he⟩
  · exact .inl hr
  · exact .inr hx
  · exact absurd he hne
  · exact absurd he hne

/-- A step on an action that is neither RESET nor a `CMD` write keeps `ERR` (R32). -/
theorem step_err_cases {s t : State} (h : step s = .next t) :
    (∃ rest, s.host = .reset :: rest) ∨ (∃ w rest, s.host = .wr cmdNum w :: rest) ∨ t.err = s.err := by
  rcases step_next_cases h with ⟨-, rfl⟩ | ⟨n, rest, -, rfl⟩ | ⟨n, v, rest, -, -, -, rfl⟩ | ⟨w, rest, hh, -, -⟩ |
    ⟨rest, hh, -⟩ | ⟨b, rest, -, rfl⟩ | ⟨rest, -, rfl⟩
  · exact .inr (.inr rfl)
  · exact .inr (.inr rfl)
  · obtain ⟨-, herr, -⟩ := writeReg_frame { s with host := rest } v (regOf n)
    exact .inr (.inr herr)
  · exact .inr (.inl ⟨w, rest, hh⟩)
  · exact .inl ⟨rest, hh⟩
  · exact .inr (.inr rfl)
  · exact .inr (.inr rfl)

/-- Settles O57: RESET and `CMD` writes by what they answer, every other step by `step_err_cases`. -/
theorem errIsWrittenByCommandsAndReset : Obligations.ErrIsWrittenByCommandsAndReset := by
  intro s t h
  refine ⟨fun rest hh => ?_, fun w rest hh => ?_, fun hne => ?_⟩
  · rw [step_reset hh] at h
    rw [← Host.Outcome.next.inj h, applyReset_err]
  · rw [step_cmdWrite (idle_of_write_next hh h) hh] at h
    rcases issue_next_cases h with ⟨e, hd, rfl⟩ | ⟨i, hd, hx⟩
    · rw [hd]; rfl
    · have hf : firstError i s = firstError i (startCommand { s with host := rest }) := rfl
      rw [hd]
      cases he : firstError i s with
      | some e => simpa [he] using exec_err_of_error hx (hf ▸ he)
      | none =>
        rw [exec_next_of_no_error hx (hf ▸ he)]
        simp [okCode, he]
  · rcases step_err_cases h with hr | hx | he
    · exact .inl hr
    · exact .inr hx
    · exact absurd he hne

/-! ### The invariant of a command boundary -/

theorem codeWritten_code (e : ErrKind) : codeWritten e.code = true := by
  cases e <;> rfl

/-- A command's end makes a command boundary of a state in which the rest of the invariant holds (R33). -/
theorem inv_endCommand {c : BitVec 4} {s : State} (hc : codeWritten c = true) (hm : Memory.wf s.buf = true)
    (hk : s.rkv = true → s.rk = keySchedule s.key) : (endCommand c s).Inv :=
  ⟨rfl, hc, hm, hk⟩

/-- Every command's effect keeps `RK` the schedule of `KEY`: KEYEXP computes it, and the others write neither (R26, R138). -/
theorem effect_keeps_schedule (i : Instr) {s : State} (hk : s.rkv = true → s.rk = keySchedule s.key) :
    (effect i s).rkv = true → (effect i s).rk = keySchedule (effect i s).key := by
  obtain ⟨-, -, hkey, -, -, hrk⟩ := effect_frame i s
  by_cases hi : i = .keyexp
  · subst hi
    simp [effect, ksRun_eq]
  · rw [(hrk hi).1, (hrk hi).2, hkey]
    exact hk

/-- A command ends at a command boundary. -/
theorem exec_inv {i : Instr} {s t : State} (hm : Memory.wf s.buf = true)
    (hk : s.rkv = true → s.rk = keySchedule s.key) (h : exec i s = .next t) : t.Inv := by
  rcases exec_next_cases h with ⟨e, -, rfl⟩ | ⟨-, -, rfl⟩
  · exact inv_endCommand (codeWritten_code e) hm hk
  · exact inv_endCommand rfl (wf_effect i s hm) (effect_keeps_schedule i hk)

theorem issue_inv {w : Word} {s t : State} (hs : s.Inv) (h : issue w s = .next t) : t.Inv := by
  obtain ⟨-, -, hm, hk⟩ := hs
  rcases issue_next_cases h with ⟨e, -, rfl⟩ | ⟨i, -, hx⟩
  · exact inv_endCommand rfl hm hk
  · exact exec_inv (s := startCommand s) hm hk hx

/-- A register write keeps the invariant: the writes to `KEY` clear `RKV`, and no other touches `RK`, `KEY` or `RKV`. -/
theorem writeReg_inv {s : State} (v : Word) (g : Reg) (hs : s.Inv) : (writeReg s v g).Inv := by
  obtain ⟨hb, he, hm, hk⟩ := hs
  obtain ⟨frk, ferr, fbusy, fbuf, fother, fkey⟩ := writeReg_frame s v g
  refine ⟨fbusy.trans hb, ferr ▸ he, fbuf ▸ hm, fun hr => ?_⟩
  by_cases hg : ∃ i, g = .key i
  · rw [fkey hg] at hr; cases hr
  · obtain ⟨frkv, fkeep⟩ := fother fun i hi => hg ⟨i, hi⟩
    rw [frk, fkeep]
    exact hk (frkv ▸ hr)

/-- Settles O60. -/
theorem resetHasTheInvariant : Obligations.ResetHasTheInvariant :=
  ⟨rfl, rfl, rfl, fun h => nomatch h⟩

/-- Settles O59, action by action of the host: only register writes, commands and RESET reach a field of the invariant. -/
theorem everyStepKeepsTheInvariant : Obligations.EveryStepKeepsTheInvariant := by
  intro s t hs h
  rcases step_next_cases h with ⟨-, rfl⟩ | ⟨n, rest, -, rfl⟩ | ⟨n, v, rest, -, -, -, rfl⟩ | ⟨w, rest, -, -, hi⟩ |
    ⟨rest, -, rfl⟩ | ⟨b, rest, -, rfl⟩ | ⟨rest, -, rfl⟩
  · exact hs
  · exact hs
  · exact writeReg_inv (s := { s with host := rest }) v (regOf n) hs
  · exact issue_inv (s := { s with host := rest }) hs hi
  · exact resetHasTheInvariant
  · exact hs
  · exact hs

/-! ### The working registers of the ECB controller -/

/-- The whole of `BUF`, offset by offset, after 16 bytes were written. -/
theorem Memory.read_writeBytes_all {m : Memory} (vs : List Byte) (a : Nat) (h : Memory.wf m = true)
    (hv : vs.length = 16) : Memory.read (Memory.writeBytes m 0 vs) a = vs.getD a 0#8 := by
  rw [Memory.read_writeBytes vs a h (by omega)]
  by_cases ha : a < 16
  · rw [if_pos (by omega), Nat.sub_zero]
  · rw [if_neg (by omega), Memory.read_above h (by omega), List.getD_eq_default _ _ (by omega)]

/-- The transform of `j + 1` windows ends in the transform of window `j`. -/
theorem ecbMap_take_succ (f : Block → Block) {q : List Byte} {j : Nat} (h : 16 * (j + 1) ≤ q.length) :
    ecbMap f (q.take (16 * (j + 1))) =
      ecbMap f (q.take (16 * j)) ++ bytesOfBlock (f (blockOfBytes ((q.drop (16 * j)).take 16))) := by
  have hw : ((q.drop (16 * j)).take 16).length = 16 := by rw [List.length_take, List.length_drop]; omega
  have hp : (q.take (16 * j)).length % 16 = 0 := by rw [List.length_take]; omega
  rw [Nat.mul_succ, List.take_add, ecbMap_append f hp, ecbMap_cons f hw.ge,
    List.take_of_length_le hw.le, List.drop_eq_nil_of_le hw.le, ecbMap_nil_of_lt f (q := []) (by simp), List.append_nil]

/-- After at least one window `BUF` reads as the last 16 bytes put to OUT. -/
theorem read_buf_afterWindows_succ (enc : Bool) (n : Nat) {q : List Byte} (s : State) {j : Nat} (a : Nat)
    (hj : 16 * (j + 1) ≤ q.length) :
    let t := afterWindows enc n q s (j + 1)
    Memory.read t.buf a = (t.out.drop (t.out.length - 16)).getD a 0 := by
  dsimp only [afterWindows]
  rw [Memory.read_writeBytes_all _ _ rfl (by simp), ecbMap_take_succ _ hj, ← List.append_assoc,
    List.drop_left' (by simp only [List.length_append, length_bytesOfBlock]; omega)]
  rfl

/-- The hidden registers after the controller ran on a text of `LEN` bytes (R42, R155, R172). -/
theorem ecRun_hidden (enc : Bool) {s : State} (hm : Memory.wf s.buf = true) (hn : textLen s ≤ s.inp.length)
    (ht : ecTotal enc (textLen s) = padLen (textLen s)) :
    let t := ecRun enc s
    t.blk = BitVec.ofNat 29 (padLen (textLen s) / 16) ∧ t.cnt = 0 ∧
      t.rnd = (if textLen s = 0 then s.rnd else lastRound enc) ∧
      (∀ a : Nat, Memory.read t.buf a =
        if textLen s = 0 then Memory.read s.buf a else (t.out.drop (t.out.length - 16)).getD a 0) ∧
      t.ksB = s.ksB ∧ t.ksA = s.ksA ∧ t.ksI = s.ksI := by
  rw [ecRun_eq enc s hn hm ht]
  have hle := le_padLen (textLen s)
  have hmod := padLen_mod (textLen s)
  cases hj : padLen (textLen s) / 16 with
  | zero =>
    have h0 : textLen s = 0 := by omega
    simp [afterWindows, h0]
  | succ j =>
    have h0 : textLen s ≠ 0 := by
      intro h
      rw [h] at hj
      cases hj
    have hq : 16 * (j + 1) ≤ (pad (s.inp.take (textLen s))).length := by
      rw [length_pad, List.length_take, Nat.min_eq_left hn]; omega
    refine ⟨rfl, rfl, by rw [if_neg h0]; rfl, fun a => ?_, rfl, rfl, rfl⟩
    rw [if_neg h0]
    exact read_buf_afterWindows_succ enc _ s a hq

/-- Settles O33: both text commands end in the controller's state, whose total is `PadLen(LEN)`. -/
theorem textCommandsLeaveTheController : Obligations.TextCommandsLeaveTheController := by
  intro s t hm hr hn
  refine ⟨fun h => ?_, fun h hl => ?_⟩
  · rw [exec_next_of_no_error h (firstError_enct hr)]
    exact ecRun_hidden true hm hn rfl
  · rw [exec_next_of_no_error h (firstError_dect hr hl)]
    have ht := ecTotal_of_whole (show textLen s % 16 = 0 from hl) false
    have hp : padLen (textLen s) = s.len.toNat := ht.symm
    have hc := ecRun_hidden false hm hn ht
    rw [hp] at hc
    exact hc

/-! ### The hidden registers cannot be seen -/

theorem visible_afterWindows (enc : Bool) (n : Nat) (q : List Byte) (s : State) (j : Nat) :
    (afterWindows enc n q s.visible j).visible = (afterWindows enc n q s j).visible := by
  cases j <;> rfl

theorem visible_ecRun (enc : Bool) {s : State} (hm : Memory.wf s.buf = true) (hn : textLen s ≤ s.inp.length)
    (ht : ecTotal enc (textLen s) = padLen (textLen s)) : (ecRun enc s.visible).visible = (ecRun enc s).visible := by
  rw [ecRun_eq enc s hn hm ht, ecRun_eq enc s.visible hn rfl ht]
  exact visible_afterWindows ..

/-- LDBLK fills all of `BUF` before it reads it (R175). -/
theorem visible_ldblkEffect {s : State} (hm : Memory.wf s.buf = true) (hn : 16 ≤ s.inp.length) :
    (ldblkEffect s.visible).visible = (ldblkEffect s).visible := by
  have hb := Memory.writeBytes_all (m := []) (s.inp.take 16) rfl hm (by simpa using hn)
  simp [ldblkEffect, ecLoad, State.visible, Config.blockBytes, hb]

/-- STBLK fills all of `BUF` before it puts it to OUT (R176). -/
theorem visible_stblkEffect {s : State} (hm : Memory.wf s.buf = true) :
    (effect .stblk s.visible).visible = (effect .stblk s).visible := by
  have hb := Memory.writeBytes_all (m := []) (bytesOfBlock ⟨s.l, s.r⟩) rfl hm (by simp)
  rw [← memWrite_block, ← memWrite_block] at hb
  simp [effect, putBuf, ecStore, State.visible, hb]

/-- What a host can see of a command's effect is the same when the hidden registers are blanked first (R40 to R42). -/
theorem visible_effect {i : Instr} {s : State} (hm : Memory.wf s.buf = true) (he : firstError i s = none)
    (hn : bytesTaken s i ≤ s.inp.length) : (effect i s.visible).visible = (effect i s).visible := by
  cases i with
  | keyexp => simp only [effect, ksRun_eq]; rfl
  | enct => exact visible_ecRun true hm hn rfl
  | dect => exact visible_ecRun false hm hn (ecTotal_of_whole (whole_of_dect_no_error he) false)
  | ror r => simp only [effect]; split <;> rfl
  | rol r => simp only [effect]; split <;> rfl
  | rndf k => simp only [effect]; split <;> rfl
  | rndi k => simp only [effect]; split <;> rfl
  | encb => simp only [effect, encryptRounds_eq]; rfl
  | decb => simp only [effect, decryptRounds_eq]; rfl
  | ldblk => exact visible_ldblkEffect hm hn
  | stblk => exact visible_stblkEffect hm

/-- A command's visible answer is the one it gives with the hidden registers blanked. -/
theorem visibleResult_exec_visible (i : Instr) {s : State} (hm : Memory.wf s.buf = true) :
    visibleResult (exec i s.visible) = visibleResult (exec i s) := by
  have hf : firstError i s.visible = firstError i s := rfl
  have hb : bytesTaken s.visible i = bytesTaken s i := by cases i <;> rfl
  rw [exec_eq, exec_eq, hf, hb, State.visible_inp]
  cases he : firstError i s with
  | some e => rfl
  | none =>
    by_cases hn : bytesTaken s i ≤ s.inp.length
    · simp only [if_pos hn]
      exact congrArg (fun u => Host.Outcome.next (endCommand okCode u)) (visible_effect hm he hn)
    · simp only [if_neg hn]

/-- Settles O50: both states give the answer of the one state they look like. -/
theorem hiddenRegistersAreUnobservable : Obligations.HiddenRegistersAreUnobservable := by
  intro i s t hs ht h
  rw [← visibleResult_exec_visible i hs, ← visibleResult_exec_visible i ht, h]

end Sys2Proof.Machine

/-! PROOF. Statements about the memory: the byte codec of Blocks, and the bytes a command moves on IN and OUT
(20_memory.md). -/

namespace Sys2Proof.Machine

/-! ### The sums of the byte codec -/

/-- The little-endian value of the first `n` bytes of a sequence, as the sum R52 writes; bytes past its end count as 0. -/
theorem leNat_take (b : List Byte) (n : Nat) :
    leNat (b.take n) = ((List.range n).map fun j => (b.getD j 0).toNat * 2 ^ (8 * j)).sum := by
  induction n generalizing b with
  | zero => simp [leNat]
  | succ n ih =>
    cases b with
    | nil => simp [leNat]
    | cons v vs =>
      have hp : ∀ j : Nat, 2 ^ (8 * (j + 1)) = 256 * 2 ^ (8 * j) := fun j => by
        rw [Nat.mul_succ, Nat.pow_add, Nat.mul_comm]
      simp [List.range_succ_eq_map, leNat, ih, Function.comp_def, hp, Nat.mul_left_comm _ 256, List.sum_map_mul_left]

/-- The Word of the first eight bytes of a sequence that has them (R52). -/
theorem leWord_take_toNat {b : List Byte} (h : 8 ≤ b.length) :
    (leWord (b.take 8)).toNat = ((List.range 8).map fun j => (b.getD j 0).toNat * 2 ^ (8 * j)).sum := by
  rw [leWord_toNat (List.length_take_of_le h), leNat_take]

/-- Byte `j` of a Word is its bits `8j+7` to `8j` (R53). -/
theorem getD_leBytes (v : Word) {j : Nat} (h : j < 8) : (leBytes v).getD j 0 = v.extractLsb' (8 * j) 8 := by
  simp [leBytes, h]

/-- The first eight bytes of a Block are its left half's, the last eight its right half's (R53). -/
theorem getD_bytesOfBlock (x : Block) {j : Nat} (h : j < 8) :
    (bytesOfBlock x).getD j 0 = x.left.extractLsb' (8 * j) 8 ∧
      (bytesOfBlock x).getD (8 + j) 0 = x.right.extractLsb' (8 * j) 8 := by
  constructor
  · rw [bytesOfBlock, List.getD_append _ _ _ _ (by simpa using h), getD_leBytes _ h]
  · rw [bytesOfBlock, List.getD_append_right _ _ _ _ (by simp), length_leBytes, Nat.add_sub_cancel_left, getD_leBytes _ h]

/-- Settles O17: each half of a Block is a sum of eight bytes, each half of its encoding the bytes of a Word. -/
theorem byteCodecIsLittleEndianAndSymmetric : Obligations.ByteCodecIsLittleEndianAndSymmetric := by
  refine ⟨fun b h => ⟨leWord_take_toNat (by omega), ?_, bytesOfBlock_blockOfBytes h⟩,
    fun x => ⟨length_bytesOfBlock x, fun j hj => getD_bytesOfBlock x hj, blockOfBytes_bytesOfBlock x⟩⟩
  simpa [blockOfBytes] using leWord_take_toNat (b := b.drop 8) (by rw [List.length_drop]; omega)

/-! ### The bytes a command takes and puts -/

/-- The bytes taken and put after `j` windows (R172). -/
theorem afterWindows_streams (enc : Bool) (n : Nat) (q : List Byte) (s : State) (j : Nat) :
    (afterWindows enc n q s j).inp = s.inp.drop (min n (16 * j)) ∧
      (afterWindows enc n q s j).out = s.out ++ ecbMap (blockTransform enc s.rk) (q.take (16 * j)) := by
  cases j with
  | zero => simp [afterWindows, ecbMap_nil_of_lt]
  | succ j => exact ⟨rfl, rfl⟩

/-- The controller takes the text and puts the transform of every window of the padded text (R172). -/
theorem ecRun_streams (enc : Bool) {s : State} (hm : Memory.wf s.buf = true) (hn : textLen s ≤ s.inp.length)
    (ht : ecTotal enc (textLen s) = padLen (textLen s)) :
    (ecRun enc s).inp = s.inp.drop (textLen s) ∧
      (ecRun enc s).out = s.out ++ ecbMap (blockTransform enc s.rk) (pad (s.inp.take (textLen s))) := by
  have hmod := padLen_mod (textLen s)
  have hle := le_padLen (textLen s)
  have h16 : 16 * (padLen (textLen s) / 16) = padLen (textLen s) := by omega
  have hq : (pad (s.inp.take (textLen s))).length ≤ padLen (textLen s) := by
    rw [length_pad, List.length_take_of_le hn]
  obtain ⟨hi, ho⟩ :=
    afterWindows_streams enc (textLen s) (pad (s.inp.take (textLen s))) s (padLen (textLen s) / 16)
  rw [h16] at hi ho
  rw [ecRun_eq enc s hn hm ht, hi, ho, Nat.min_eq_left hle, List.take_of_length_le hq]
  exact ⟨rfl, rfl⟩

/-- The number of bytes the controller puts for a text of `n` bytes (R172). -/
theorem length_ecbMap_pad (f : Block → Block) {p : List Byte} {n : Nat} (hn : n ≤ p.length) :
    (ecbMap f (pad (p.take n))).length = padLen n := by
  have hmod := padLen_mod n
  rw [length_ecbMap, length_pad, List.length_take_of_le hn]
  omega

/-- `t` is `s` after the bytes the opcode map gives command `i` were taken from IN and put to OUT (R73). -/
def MovesBytes (i : Instr) (s t : State) : Prop :=
  t.inp = s.inp.drop (bytesTaken s i) ∧ ∃ o : List Byte, t.out = s.out ++ o ∧ o.length = bytesPut s i

/-- A command that takes and puts nothing leaves both streams. -/
theorem movesBytes_of_same {i : Instr} {s t : State} (h : bytesTaken s i = 0 ∧ bytesPut s i = 0)
    (ht : t.inp = s.inp ∧ t.out = s.out) : MovesBytes i s t :=
  ⟨by rw [ht.1, h.1, List.drop_zero], [], by rw [ht.2, List.append_nil], h.2.symm⟩

/-- A command's effect moves the opcode map's numbers of bytes (R55, R73). -/
theorem movesBytes_effect {i : Instr} {s : State} (hm : Memory.wf s.buf = true) (he : firstError i s = none)
    (hn : bytesTaken s i ≤ s.inp.length) : MovesBytes i s (effect i s) := by
  cases i with
  | enct =>
    obtain ⟨hi, ho⟩ := ecRun_streams true hm hn rfl
    exact ⟨hi, _, ho, length_ecbMap_pad _ hn⟩
  | dect =>
    have ht := ecTotal_of_whole (whole_of_dect_no_error he) false
    obtain ⟨hi, ho⟩ := ecRun_streams false hm hn ht
    exact ⟨hi, _, ho, (length_ecbMap_pad _ hn).trans ht.symm⟩
  | ror _ | rol _ | rndf _ | rndi _ =>
    exact movesBytes_of_same ⟨rfl, rfl⟩ (by simp only [effect]; split <;> exact ⟨rfl, rfl⟩)
  | keyexp | encb | decb =>
    exact movesBytes_of_same ⟨rfl, rfl⟩ (by simp [effect, ksRun_eq, encryptRounds_eq, decryptRounds_eq])
  | ldblk =>
    refine ⟨?_, [], ?_, rfl⟩
    · simp [effect, ldblkEffect, bytesTaken, Config.blockBytes]
    · simp [effect, ldblkEffect]
  | stblk =>
    refine ⟨by simp [effect, bytesTaken], Memory.readBytes (ecStore { s with cnt := 0 }).buf 0 16, ?_, ?_⟩
    · simp [effect]
    · simp [bytesPut]

/-- A command with no error and with its bytes on IN succeeds with its effect (R72 step 8). -/
theorem exec_of_no_error {i : Instr} {s : State} (he : firstError i s = none) (hn : bytesTaken s i ≤ s.inp.length) :
    exec i s = .next (endCommand okCode (effect i s)) := by
  rw [exec_eq, he]
  exact if_pos hn

/-- Settles O41: the command ends with its effect, which moves the opcode map's numbers of bytes. -/
theorem commandWithoutErrorSucceeds : Obligations.CommandWithoutErrorSucceeds := by
  intro i s hm he hn
  obtain ⟨hi, o, ho, hl⟩ := movesBytes_effect hm he hn
  exact ⟨_, o, exec_of_no_error he hn, rfl, rfl, hi, ho, hl⟩

end Sys2Proof.Machine

/-! PROOF. Statements about the command word: the decoder and the encoder are inverse to each other, and the rows of the
opcode map are what the decoder accepts (30_encoding.md). -/

namespace Sys2Proof.Laws

open WordFields

/-! ### A word is its three fields -/

/-- `OPC`, `ARG` and `RSV` cover the word (R71). -/
theorem toNat_eq_fields (w : Word) : w.toNat = opcOf w + 256 * argOf w + 2 ^ 14 * rsvOf w := by
  have hw := w.isLt
  simp only [opcOf, argOf, rsvOf, BitVec.extractLsb'_toNat, Nat.shiftRight_eq_div_pow]
  omega

theorem argOf_lt (w : Word) : argOf w < 64 := (w.extractLsb' 8 6).isLt

/-- `ARG` as the arithmetic of R74 writes it. -/
theorem argOf_eq (w : Word) : argOf w = w.toNat / 256 % 64 := by
  rw [argOf, BitVec.extractLsb'_toNat, Nat.shiftRight_eq_div_pow]

/-- A word is the command word of an opcode and an argument exactly when its fields are these and `RSV` is 0. -/
theorem eq_commandWord_iff {w : Word} {op a : Nat} (ho : op < 256) (ha : a < 64) :
    w = commandWord op a ↔ opcOf w = op ∧ argOf w = a ∧ rsvOf w = 0 := by
  have hc := fields_commandWord ho ha
  constructor
  · rintro rfl
    exact hc
  · rintro ⟨hop, harg, hrsv⟩
    obtain ⟨hop', harg', hrsv'⟩ := hc
    apply BitVec.eq_of_toNat_eq
    rw [toNat_eq_fields w, toNat_eq_fields (commandWord op a), hop, harg, hrsv, hop', harg', hrsv']

/-- The mask of a row with an argument keeps `OPC` and `RSV` and clears `ARG` (R73). -/
theorem fields_and_argMask (w : Word) :
    opcOf (w &&& 0xFFFFFFFFFFFFC0FF#64) = opcOf w ∧ argOf (w &&& 0xFFFFFFFFFFFFC0FF#64) = 0 ∧
      rsvOf (w &&& 0xFFFFFFFFFFFFC0FF#64) = rsvOf w := by
  have hop : (0xFFFFFFFFFFFFC0FF#64).extractLsb' 0 8 = BitVec.allOnes 8 := by decide
  have harg : (0xFFFFFFFFFFFFC0FF#64).extractLsb' 8 6 = 0#6 := by decide
  have hrsv : (0xFFFFFFFFFFFFC0FF#64).extractLsb' 14 50 = BitVec.allOnes 50 := by decide
  simp only [opcOf, argOf, rsvOf, BitVec.extractLsb'_and, hop, harg, hrsv, BitVec.and_allOnes, BitVec.and_zero,
    BitVec.toNat_zero, and_self]

/-! ### The words of a command -/

theorem opc_lt (i : Instr) : opc i < 256 := by
  cases i <;> simp [opc]

theorem wellFormed_iff_arg_lt (i : Instr) : wellFormed i = true ↔ arg i < 64 := by
  cases i <;> simp [wellFormed, argFits, arg]

theorem encode_eq_commandWord (i : Instr) : encode i = commandWord (opc i) (arg i) := by
  cases i <;> rfl

theorem withoutArg_eq_ok_iff {a : Nat} {i j : Instr} : withoutArg a i = .ok j ↔ i = j ∧ a = 0 := by
  by_cases ha : a = 0 <;> simp [withoutArg, ha]

/-- Steps 1 to 3 of R72 accept a word for a command exactly when the word has the fields of the command's row. -/
theorem decode_eq_ok_iff_fields {w : Word} {i : Instr} :
    decode w = .ok i ↔ opcOf w = opc i ∧ argOf w = arg i ∧ rsvOf w = 0 := by
  constructor
  · intro h
    unfold decode at h
    split_ifs at h with hrsv
    have hrsv : rsvOf w = 0 := not_not.1 hrsv
    split at h <;> rename_i hop <;> simp only [withoutArg_eq_ok_iff, Except.ok.injEq, reduceCtorEq] at h
    -- The rows 4 to 7 hold any argument; the others want `ARG` = 0.
    case h_4 | h_5 | h_6 | h_7 =>
      subst h
      exact ⟨hop, rfl, hrsv⟩
    all_goals
      obtain ⟨rfl, harg⟩ := h
      exact ⟨hop, harg, hrsv⟩
  · rintro ⟨hop, harg, hrsv⟩
    cases i <;> simp [decode, withoutArg, hop, harg, hrsv, opc, arg]

/-- The only word that decodes to a command is its encoding, and only a well-formed command has one. -/
theorem decode_eq_ok_iff {w : Word} {i : Instr} : decode w = .ok i ↔ wellFormed i = true ∧ w = encode i := by
  rw [decode_eq_ok_iff_fields, wellFormed_iff_arg_lt, encode_eq_commandWord]
  constructor
  · rintro ⟨hop, harg, hrsv⟩
    have ha : arg i < 64 := harg ▸ argOf_lt w
    exact ⟨ha, (eq_commandWord_iff (opc_lt i) ha).2 ⟨hop, harg, hrsv⟩⟩
  · rintro ⟨ha, hw⟩
    exact (eq_commandWord_iff (opc_lt i) ha).1 hw

/-- Settles O1. -/
theorem decodeOfEncodeIsSame : Obligations.DecodeOfEncodeIsSame :=
  fun _ hi => decode_eq_ok_iff.2 ⟨hi, rfl⟩

/-- Settles O2. -/
theorem encodeOfDecodeIsSame : Obligations.EncodeOfDecodeIsSame := by
  intro w i h
  obtain ⟨hi, hw⟩ := decode_eq_ok_iff.1 h
  exact ⟨hi, hw.symm⟩

/-! ### The rows of the opcode map -/

/-- A row whose mask covers the whole word: the match is the command's one word (R73). -/
theorem decode_eq_ok_iff_fullMask (w : Word) {i : Instr} (hi : wellFormed i = true) :
    decode w = .ok i ↔ w &&& 0xFFFFFFFFFFFFFFFF#64 = encode i := by
  have hm : w &&& 0xFFFFFFFFFFFFFFFF#64 = w := BitVec.and_allOnes
  rw [decode_eq_ok_iff, hm]
  exact and_iff_right hi

/-- A row whose mask leaves out `ARG`: the match is the row's opcode, and `ARG` is the argument (R73, R74). -/
theorem decode_eq_ok_iff_argMask (w : Word) (i : Instr) :
    decode w = .ok i ↔ w &&& 0xFFFFFFFFFFFFC0FF#64 = commandWord (opc i) 0 ∧ arg i = w.toNat / 256 % 64 := by
  obtain ⟨hop, harg, hrsv⟩ := fields_and_argMask w
  rw [decode_eq_ok_iff_fields, eq_commandWord_iff (opc_lt i) (by decide), hop, harg, hrsv, ← argOf_eq,
    eq_comm (a := arg i)]
  tauto

/-- Settles O3: seven rows have the full mask, and the four with an argument the mask without `ARG`. -/
theorem opcodeMapRowsDecode : Obligations.OpcodeMapRowsDecode := fun w =>
  ⟨decode_eq_ok_iff_fullMask w rfl, decode_eq_ok_iff_fullMask w rfl, decode_eq_ok_iff_fullMask w rfl,
    fun r => decode_eq_ok_iff_argMask w (.ror r), fun r => decode_eq_ok_iff_argMask w (.rol r),
    fun k => decode_eq_ok_iff_argMask w (.rndf k), fun k => decode_eq_ok_iff_argMask w (.rndi k),
    decode_eq_ok_iff_fullMask w rfl, decode_eq_ok_iff_fullMask w rfl, decode_eq_ok_iff_fullMask w rfl,
    decode_eq_ok_iff_fullMask w rfl⟩

/-- Settles O5: each of the words is the encoding of its command. -/
theorem sampleCommandWordsDecode : Obligations.SampleCommandWordsDecode := by
  have h := decodeOfEncodeIsSame
  exact ⟨h (.ror 8) rfl, h (.rndi 26) rfl, h .keyexp rfl, h .enct rfl, h .dect rfl, h (.rol 3) rfl, h (.rndf 27) rfl,
    h .encb rfl, h .decb rfl, h .ldblk rfl, h .stblk rfl⟩

end Sys2Proof.Laws

/-! PROOF. Statements about the word operations: the rotations as functions of a Word, the commands ROR and ROL, and, of all
the commands that work on `(L, R)` alone, what they undo and what they leave alone (40_word_ops.md). -/

namespace Sys2Proof.Machine

open Sys2Proof.Laws Sys2Proof.Laws.WordFields

/-! ### The rotations of a Word -/

theorem rotAmount_lt (r : RotAmount) : r.val < 64 := Nat.lt_succ_of_le r.le63

/-- The amount that completes a rotation to all 64 bits. -/
def restAmount (r : RotAmount) : RotAmount :=
  ⟨64 - r.val, Nat.sub_pos_of_lt (rotAmount_lt r), Nat.sub_le_sub_left r.pos 64⟩

theorem val_add_restAmount (r : RotAmount) : r.val + (restAmount r).val = 64 :=
  Nat.add_sub_cancel' (rotAmount_lt r).le

/-- A left rotation is the right rotation by the rest of the 64 bits (R105). -/
theorem rol64_eq_ror64 (x : Word) (r : RotAmount) : rol64 x r = ror64 x (restAmount r) := by
  have hr : 64 - (restAmount r).val = r.val := Nat.sub_sub_self (rotAmount_lt r).le
  rw [rol64, ror64, hr, BitVec.or_comm]
  rfl

theorem ror64_eq_rotateRight (x : Word) (r : RotAmount) : ror64 x r = x.rotateRight r.val := by
  rw [BitVec.rotateRight_def, Nat.mod_eq_of_lt (rotAmount_lt r), ror64]

/-- Bit `j` of a right rotation comes from bit `(j + r) mod 64` (R100). -/
theorem getLsbD_ror64 (x : Word) (r : RotAmount) {j : Nat} (hj : j < 64) :
    (ror64 x r).getLsbD j = x.getLsbD ((j + r.val) % 64) := by
  have hr := rotAmount_lt r
  rw [ror64_eq_rotateRight, BitVec.getLsbD_rotateRight_of_lt hr]
  by_cases h : j < 64 - r.val
  · have e : (j + r.val) % 64 = r.val + j := by omega
    simp [h, e]
  · have e : (j + r.val) % 64 = j - (64 - r.val) := by omega
    simp [h, hj, e]

/-- A right rotation exchanges the lower `r` bits and the upper `64 - r` (R100). -/
theorem toNat_ror64 (x : Word) (r : RotAmount) :
    (ror64 x r).toNat = x.toNat % 2 ^ r.val * 2 ^ (64 - r.val) + x.toNat / 2 ^ r.val := by
  have hpow : 2 ^ 64 = 2 ^ r.val * 2 ^ (64 - r.val) := by
    rw [← Nat.pow_add, Nat.add_sub_cancel' (rotAmount_lt r).le]
  have hlow : x.toNat / 2 ^ r.val < 2 ^ (64 - r.val) := Nat.div_lt_of_lt_mul (hpow ▸ x.isLt)
  rw [ror64, BitVec.toNat_or, BitVec.toNat_ushiftRight, BitVec.toNat_shiftLeft, Nat.shiftRight_eq_div_pow, Nat.or_comm,
    Nat.shiftLeft_eq, hpow, Nat.mul_mod_mul_right, ← Nat.shiftLeft_eq, Nat.shiftLeft_add_eq_or_of_lt hlow]

/-- Two right rotations in a row are one by the sum of the amounts mod 64 (R105). -/
theorem ror64_ror64 (x : Word) {a b c : RotAmount} (h : (a.val + b.val) % 64 = c.val) :
    ror64 (ror64 x a) b = ror64 x c := by
  refine BitVec.eq_of_getLsbD_eq fun j hj => ?_
  rw [getLsbD_ror64 _ _ hj, getLsbD_ror64 _ _ (Nat.mod_lt _ (by decide)), getLsbD_ror64 _ _ hj]
  congr 1
  omega

/-- Two right rotations by 64 bits together give the Word back (R105). -/
theorem ror64_ror64_cancel (x : Word) {a b : RotAmount} (h : a.val + b.val = 64) : ror64 (ror64 x a) b = x := by
  refine BitVec.eq_of_getLsbD_eq fun j hj => ?_
  rw [getLsbD_ror64 _ _ hj, getLsbD_ror64 _ _ (Nat.mod_lt _ (by decide))]
  congr 1
  omega

@[simp] theorem rol64_ror64 (x : Word) (r : RotAmount) : rol64 (ror64 x r) r = x := by
  rw [rol64_eq_ror64, ror64_ror64_cancel x (val_add_restAmount r)]

@[simp] theorem ror64_rol64 (x : Word) (r : RotAmount) : ror64 (rol64 x r) r = x := by
  rw [rol64_eq_ror64, ror64_ror64_cancel x (by rw [Nat.add_comm, val_add_restAmount r])]

/-- Two left rotations in a row are one by the sum of the amounts (R105). -/
theorem rol64_rol64 (x : Word) {a b c : RotAmount} (h : a.val + b.val = c.val) : rol64 (rol64 x a) b = rol64 x c := by
  rw [rol64_eq_ror64, rol64_eq_ror64, rol64_eq_ror64]
  apply ror64_ror64
  have ha := val_add_restAmount a
  have hb := val_add_restAmount b
  have hc := val_add_restAmount c
  have := c.pos
  omega

/-- A rotation keeps 0: no bit is created (R105). -/
theorem ror64_zero (r : RotAmount) : ror64 0 r = 0 := by simp [ror64]

/-- A rotation keeps the Word of ones: no bit is lost (R105). -/
theorem ror64_allOnes (r : RotAmount) : ror64 (BitVec.allOnes 64) r = BitVec.allOnes 64 := by
  refine BitVec.eq_of_getLsbD_eq fun j hj => ?_
  rw [getLsbD_ror64 _ _ hj, BitVec.getLsbD_allOnes, BitVec.getLsbD_allOnes]
  simp [hj, Nat.mod_lt]

theorem ror64_xor (x y : Word) (r : RotAmount) : ror64 (x ^^^ y) r = ror64 x r ^^^ ror64 y r := by
  refine BitVec.eq_of_getLsbD_eq fun j hj => ?_
  simp only [BitVec.getLsbD_xor, getLsbD_ror64 _ _ hj]

/-- Settles O9: the facts about ROL are those about ROR by the rest of the amount. -/
theorem rotationsMoveEveryBit : Obligations.RotationsMoveEveryBit := by
  intro x r
  have hrest : 64 - (restAmount r).val = r.val := Nat.sub_sub_self (rotAmount_lt r).le
  refine ⟨rfl, fun j hj => getLsbD_ror64 x r hj, toNat_ror64 x r, rfl, fun j hj => ?_, ?_⟩
  · rw [rol64_eq_ror64, getLsbD_ror64 x (restAmount r) hj]
    rfl
  · rw [rol64_eq_ror64, toNat_ror64, hrest]
    rfl

/-- Settles O10: each equation is a lemma above, and two amounts with a sum of at most 63 add without a wrap. -/
theorem rotationLaws : Obligations.RotationLaws := by
  intro x y r
  refine ⟨rol64_eq_ror64 x r, rol64_ror64 x r, ror64_rol64 x r, ror64_zero r, ror64_allOnes r, ror64_xor x y r,
    fun a b c h => ⟨ror64_ror64 x ?_, rol64_rol64 x h⟩⟩
  rw [h, Nat.mod_eq_of_lt (rotAmount_lt c)]

/-! ### The rounds and the block transforms undo each other -/

/-- The inverse round takes the forward round's steps back from the last: the xor of the halves, the rotation of `r`, the
xor with the subkey, the addition, the rotation of `l` (R125). -/
theorem roundInv_roundFwd (b : Block) (k : Word) : roundInv (roundFwd b k) k = b := by
  simp [roundFwd, roundInv]

/-- The forward round takes the inverse round's steps back in the same way (R125). -/
theorem roundFwd_roundInv (b : Block) (k : Word) : roundFwd (roundInv b k) k = b := by
  simp [roundFwd, roundInv]

/-- Rounds run over a list of subkeys are undone by their inverses over the list reversed. -/
theorem foldl_reverse_foldl {f g : Block → Word → Block} (h : ∀ b k, g (f b k) k = b) (ks : List Word) (b : Block) :
    ks.reverse.foldl g (ks.foldl f b) = b := by
  induction ks generalizing b with
  | nil => rfl
  | cons k ks ih => simp [List.foldl_append, ih, h]

theorem decryptBlock_encryptBlock (rk : RoundKeys) (b : Block) : decryptBlock rk (encryptBlock rk b) = b :=
  foldl_reverse_foldl roundInv_roundFwd rk.toList b

theorem encryptBlock_decryptBlock (rk : RoundKeys) (b : Block) : encryptBlock rk (decryptBlock rk b) = b := by
  simpa [decryptBlock, encryptBlock] using foldl_reverse_foldl roundFwd_roundInv rk.toList.reverse b

/-! ### Words that raise IllegalCommand -/

theorem opcOf_eq (w : Word) : opcOf w = w.toNat % 256 := by
  rw [opcOf, BitVec.extractLsb'_toNat, Nat.shiftRight_zero]

theorem rsvOf_eq (w : Word) : rsvOf w = w.toNat / 2 ^ 14 := by
  have hw := w.isLt
  rw [rsvOf, BitVec.extractLsb'_toNat, Nat.shiftRight_eq_div_pow, Nat.mod_eq_of_lt (by omega)]

/-- A `CMD` write of a word that encodes no command changes `ERR` and nothing else (R211). -/
theorem issue_of_not_decodes {w : Word} (s : State) (h : ∀ i, decode w ≠ .ok i) :
    issue w s = .next { s with err := 3, busy := false } := by
  unfold issue
  split
  · exact absurd (by assumption) (h _)
  · rfl

/-- A word with a bit of `RSV` set, or with a non-zero `ARG` and the opcode of a row that takes none, raises IllegalCommand
(R75, R211). -/
theorem malformedWordsRaise {op : Nat} {takesArg : Bool} (h : takesArg = true ∨ ∀ i, opc i = op → arg i = 0)
    (s : State) : MalformedWordsRaise op takesArg s := by
  intro w hop hbad
  refine issue_of_not_decodes s fun i hi => ?_
  obtain ⟨hopc, harg, hrsv⟩ := decode_eq_ok_iff_fields.1 hi
  rw [← rsvOf_eq, ← argOf_eq] at hbad
  rcases hbad with hb | ⟨ht, hb⟩
  · exact hb hrsv
  · have hop : opc i = op := by rw [← hopc, opcOf_eq, hop]
    exact hb (harg.trans (h.resolve_left (by simp [ht]) i hop))

/-! ### How the commands that work on the registers alone end -/

/-- A command with an error leaves its code in `ERR` and changes nothing else (R218). -/
theorem exec_of_error {i : Instr} {s : State} {e : ErrKind} (h : firstError i s = some e) :
    exec i s = .next { s with err := e.code, busy := false } := by
  rw [exec_eq, h]
  rfl

/-- In normal mode a diagnostic command does not exist (R212). -/
theorem exec_normal {i : Instr} {s : State} (hi : needsDiag i = true) (hd : s.diag = false) :
    exec i s = .next { s with err := 3, busy := false } :=
  exec_of_error (e := .illegalCommand) (by simp [firstError, hi, hd])

/-- In diagnostic mode an illegal argument is the first error (R213, R217). -/
theorem exec_illegalArg {i : Instr} {s : State} (hd : s.diag = true) (ha : argLegal i = false) :
    exec i s = .next { s with err := 5, busy := false } :=
  exec_of_error (e := .badOperand) (by simp [firstError, hd, ha])

/-- The commands that work on `(L, R)` and move no byte: ROR, ROL, RNDF, RNDI, ENCB and DECB. -/
def registerOnly : Instr → Bool
  | .ror _ | .rol _ | .rndf _ | .rndi _ | .encb | .decb => true
  | .keyexp | .enct | .dect | .ldblk | .stblk => false

theorem bytesTaken_registerOnly {i : Instr} (hi : registerOnly i = true) (s : State) : bytesTaken s i = 0 := by
  cases i with
  | ror _ | rol _ | rndf _ | rndi _ | encb | decb => rfl
  | keyexp | enct | dect | ldblk | stblk => cases hi

/-- A register command with a legal argument succeeds in diagnostic mode, with a valid schedule if it needs one (R217). -/
theorem exec_registerOnly {i : Instr} {s : State} (hi : registerOnly i = true) (hd : s.diag = true)
    (ha : argLegal i = true) (hs : needsSchedule i = false ∨ s.rkv = true) :
    exec i s = .next (endCommand okCode (effect i s)) := by
  have hdect : i ≠ .dect := by rintro rfl; cases hi
  have he : firstError i s = none := by
    rcases hs with hs | hs <;> simp [firstError, hd, ha, hdect, hs]
  exact exec_of_no_error he (by rw [bytesTaken_registerOnly hi]; exact Nat.zero_le _)

theorem effect_ror {r : Nat} (h : 1 ≤ r) (h' : r ≤ 63) (s : State) :
    effect (.ror r) s = { s with l := ror64 s.l ⟨r, h, h'⟩ } := by
  simp [effect, rotAmount_legal ⟨h, h'⟩]

theorem effect_rol {r : Nat} (h : 1 ≤ r) (h' : r ≤ 63) (s : State) :
    effect (.rol r) s = { s with l := rol64 s.l ⟨r, h, h'⟩ } := by
  simp [effect, rotAmount_legal ⟨h, h'⟩]

theorem effect_rndf {i : Nat} (h : i ≤ 26) (s : State) :
    effect (.rndf i) s = s.withBlock (roundFwd s.block (s.rk.get ⟨i, Nat.lt_succ_of_le h⟩)) := by
  simp [effect, roundIndex_legal h]

theorem effect_rndi {i : Nat} (h : i ≤ 26) (s : State) :
    effect (.rndi i) s = s.withBlock (roundInv s.block (s.rk.get ⟨i, Nat.lt_succ_of_le h⟩)) := by
  simp [effect, roundIndex_legal h]

theorem effect_encb_block (s : State) : (effect .encb s).block = encryptBlock s.rk s.block := by
  rw [effect, encryptRounds_eq]
  rfl

theorem effect_decb_block (s : State) : (effect .decb s).block = decryptBlock s.rk s.block := by
  rw [effect, decryptRounds_eq]
  rfl

@[simp] theorem endCommand_block (c : BitVec 4) (s : State) : (endCommand c s).block = s.block := rfl

/-- Settles O23: the mode is tested before the amount, and a legal amount rotates `L`. -/
theorem rorRotatesRight : Obligations.RorRotatesRight := by
  intro s r _
  refine ⟨rfl, malformedWordsRaise (.inl rfl) s, exec_normal rfl,
    fun hd hr => exec_illegalArg hd (by simp [argLegal, hr]), fun hd h h' => ?_⟩
  rw [exec_registerOnly rfl hd (by simp [argLegal, h, h']) (.inl rfl), effect_ror h h']
  rfl

/-- Settles O24: the mode is tested before the amount, and a legal amount rotates `L`. -/
theorem rolRotatesLeft : Obligations.RolRotatesLeft := by
  intro s r _
  refine ⟨rfl, malformedWordsRaise (.inl rfl) s, exec_normal rfl,
    fun hd hr => exec_illegalArg hd (by simp [argLegal, hr]), fun hd h h' => ?_⟩
  rw [exec_registerOnly rfl hd (by simp [argLegal, h, h']) (.inl rfl), effect_rol h h']
  rfl

/-! ### Pairs of inverse commands -/

theorem effect_rk {i : Instr} {s : State} (hi : i ≠ .keyexp) : (effect i s).rk = s.rk := by
  obtain ⟨-, -, -, -, -, h⟩ := effect_frame i s
  exact (h hi).1

/-- Two register commands, both with legal arguments, restore `(L, R)` and leave `ERR` = 0 if the second's effect undoes what
the first did to the Block. -/
theorem runCommands_restores {i j : Instr} {s : State} (hd : s.diag = true) (hk : s.rkv = true)
    (hi : registerOnly i = true ∧ argLegal i = true) (hj : registerOnly j = true ∧ argLegal j = true)
    (hb : (effect j (endCommand okCode (effect i s))).block = s.block) :
    ∃ t : State, runCommands [i, j] s = .next t ∧ t.l = s.l ∧ t.r = s.r ∧ t.err = 0 := by
  obtain ⟨hd', -, -, -, -, hrk⟩ := effect_frame i s
  have hkey : i ≠ .keyexp := by rintro rfl; cases hi.1
  refine ⟨endCommand okCode (effect j (endCommand okCode (effect i s))), ?_, congrArg Block.left hb,
    congrArg Block.right hb, rfl⟩
  have first := exec_registerOnly hi.1 hd hi.2 (.inr hk)
  have second := exec_registerOnly (s := endCommand okCode (effect i s)) hj.1 (hd'.trans hd) hj.2
    (.inr ((hrk hkey).2.trans hk))
  simp only [runCommands, first, second]

/-- Settles O37: the second effect of each pair undoes the first. -/
theorem inverseCommandsRestoreTheBlock : Obligations.InverseCommandsRestoreTheBlock := by
  intro s r i hd hk h1 h63 h26 p hp
  have hror : registerOnly (.ror r) = true ∧ argLegal (.ror r) = true := ⟨rfl, by simp [argLegal, h1, h63]⟩
  have hrol : registerOnly (.rol r) = true ∧ argLegal (.rol r) = true := ⟨rfl, by simp [argLegal, h1, h63]⟩
  have hrndf : registerOnly (.rndf i) = true ∧ argLegal (.rndf i) = true := ⟨rfl, by simp [argLegal, h26]⟩
  have hrndi : registerOnly (.rndi i) = true ∧ argLegal (.rndi i) = true := ⟨rfl, by simp [argLegal, h26]⟩
  simp only [List.mem_cons, List.not_mem_nil, or_false] at hp
  rcases hp with rfl | rfl | rfl | rfl | rfl | rfl
  · exact runCommands_restores hd hk hrol hror (by simp [effect_ror h1 h63, effect_rol h1 h63, State.block])
  · exact runCommands_restores hd hk hror hrol (by simp [effect_ror h1 h63, effect_rol h1 h63, State.block])
  · exact runCommands_restores hd hk hrndf hrndi (by simp [effect_rndf h26, effect_rndi h26, roundInv_roundFwd])
  · exact runCommands_restores hd hk hrndi hrndf (by simp [effect_rndf h26, effect_rndi h26, roundFwd_roundInv])
  · refine runCommands_restores hd hk ⟨rfl, rfl⟩ ⟨rfl, rfl⟩ ?_
    rw [effect_decb_block, endCommand_block, effect_encb_block, endCommand_rk, effect_rk (i := .encb) nofun,
      decryptBlock_encryptBlock]
  · refine runCommands_restores hd hk ⟨rfl, rfl⟩ ⟨rfl, rfl⟩ ?_
    rw [effect_encb_block, endCommand_block, effect_decb_block, endCommand_rk, effect_rk (i := .decb) nofun,
      encryptBlock_decryptBlock]

/-! ### What the register commands leave alone -/

/-- A command that answers a next state ended on the state it found or on the one its effect made. -/
theorem exec_next_endCommand {i : Instr} {s t : State} (h : exec i s = .next t) :
    ∃ c u, t = endCommand c u ∧ (u = s ∨ u = effect i s) := by
  rcases exec_next_cases h with ⟨e, -, ht⟩ | ⟨-, -, ht⟩
  · exact ⟨_, _, ht, .inl rfl⟩
  · exact ⟨_, _, ht, .inr rfl⟩

theorem rotation_frame {i : Instr} {k : Nat} {s u : State} (hi : i ∈ [Instr.ror k, .rol k])
    (hu : u = s ∨ u = effect i s) : u = { s with l := u.l } := by
  simp only [List.mem_cons, List.not_mem_nil, or_false] at hi
  rcases hu with rfl | rfl
  · rfl
  · rcases hi with rfl | rfl <;> simp only [effect] <;> split <;> rfl

theorem round_frame {i : Instr} {k : Nat} {s u : State} (hi : i ∈ [Instr.rndf k, .rndi k])
    (hu : u = s ∨ u = effect i s) : u = { s with l := u.l, r := u.r } := by
  simp only [List.mem_cons, List.not_mem_nil, or_false] at hi
  rcases hu with rfl | rfl
  · rfl
  · rcases hi with rfl | rfl <;> simp only [effect] <;> split <;> rfl

theorem blockCommand_frame {i : Instr} {s u : State} (hi : i ∈ [Instr.encb, .decb])
    (hu : u = s ∨ u = effect i s) : u = { s with l := u.l, r := u.r, rnd := u.rnd } := by
  simp only [List.mem_cons, List.not_mem_nil, or_false] at hi
  rcases hu with rfl | rfl
  · rfl
  · rcases hi with rfl | rfl <;> simp only [effect, encryptRounds_eq, decryptRounds_eq]

/-- Settles O47: the command ended on the state it found or on its effect, and both agree with the state it found but for
the registers named. -/
theorem registerCommandsFrame : Obligations.RegisterCommandsFrame := by
  intro s t k
  refine ⟨fun i hi h => ?_, fun i hi h => ?_, fun i hi h => ?_⟩ <;>
    obtain ⟨c, u, rfl, hu⟩ := exec_next_endCommand h
  · rw [rotation_frame hi hu]
    exact ⟨rfl, fun _ => rfl⟩
  · rw [round_frame hi hu]
    exact ⟨rfl, fun _ => rfl⟩
  · rw [blockCommand_frame hi hu]
    exact ⟨rfl, fun _ => rfl⟩

end Sys2Proof.Machine

/-! PROOF. Statements about the round function: its lines in integers, the two directions as inverses of each other, and
the commands RNDF and RNDI, one at a time and 27 in order (41_round_function.md). -/

namespace Sys2Proof.Machine

/-! ### The lines of a round in integers -/

/-- A rotation amount is its value (R102). -/
theorem RotAmount.eq_of_val {a b : RotAmount} (h : a.val = b.val) : a = b := by
  cases a
  cases b
  cases h
  rfl

/-- `+64` is the sum in integers modulo 2^64 (R103). -/
theorem word_add_eq (x y : Word) : x + y = BitVec.ofNat 64 ((x.toNat + y.toNat) % 2 ^ 64) :=
  BitVec.eq_of_toNat_eq (by simp)

/-- `-64` is the difference in integers modulo 2^64 (R103). -/
theorem word_sub_eq (x y : Word) : x - y = BitVec.ofNat 64 ((2 ^ 64 + x.toNat - y.toNat) % 2 ^ 64) := by
  have hy := y.isLt
  have e : 2 ^ 64 - y.toNat + x.toNat = 2 ^ 64 + x.toNat - y.toNat := by omega
  refine BitVec.eq_of_toNat_eq ?_
  rw [BitVec.toNat_sub, BitVec.toNat_ofNat, Nat.mod_mod, e]

/-- Settles O11: the amounts are the configuration's, and the sum and the difference are those of R103. -/
theorem roundLinesInIntegers : Obligations.RoundLinesInIntegers := by
  intro l r k r8 r3 h8 h3
  obtain rfl : r8 = Config.rorAmt := RotAmount.eq_of_val h8
  obtain rfl : r3 = Config.rolAmt := RotAmount.eq_of_val h3
  refine ⟨⟨?_, rfl⟩, rfl, ?_⟩
  · rw [← word_add_eq]
    rfl
  · rw [← word_sub_eq]
    rfl

/-- Settles O12. -/
theorem roundsInvertEachOther : Obligations.RoundsInvertEachOther :=
  fun b k => ⟨roundInv_roundFwd b k, roundFwd_roundInv b k⟩

/-! ### One round as a command -/

/-- In diagnostic mode with a legal argument, a missing schedule is the first error (R214, R217). -/
theorem exec_noSchedule {i : Instr} {s : State} (hi : needsSchedule i = true) (hd : s.diag = true)
    (ha : argLegal i = true) (hk : s.rkv = false) : exec i s = .next { s with err := 4, busy := false } :=
  exec_of_error (e := .noSchedule) (by simp [firstError, hi, hd, ha, hk])

/-- The command `c i` is one round `f` on `(L, R)` with `RK[i]`, in diagnostic mode with a valid schedule. -/
def RunsRound (c : Nat → Instr) (f : Block → Word → Block) : Prop :=
  ∀ (s : State) (i : Fin 27), s.diag = true → s.rkv = true →
    exec (c i) s = .next (endCommand okCode (s.withBlock (f s.block (s.rk.get i))))

theorem rndf_runsRound : RunsRound .rndf roundFwd := by
  intro s i hd hk
  have hi : i.val ≤ 26 := Nat.le_of_lt_succ i.isLt
  rw [exec_registerOnly (i := .rndf i) rfl hd (decide_eq_true hi) (.inr hk), effect_rndf hi]

theorem rndi_runsRound : RunsRound .rndi roundInv := by
  intro s i hd hk
  have hi : i.val ≤ 26 := Nat.le_of_lt_succ i.isLt
  rw [exec_registerOnly (i := .rndi i) rfl hd (decide_eq_true hi) (.inr hk), effect_rndi hi]

/-- Settles O25: the mode, the index and the schedule are tested in this order, and then one round runs. -/
theorem rndfRunsOneForwardRound : Obligations.RndfRunsOneForwardRound := by
  intro s i _
  refine ⟨rfl, malformedWordsRaise (.inl rfl) s, exec_normal rfl, fun hd hi => ?_, fun hd hi hk => ?_,
    fun hd hk h => ?_⟩
  · exact exec_illegalArg hd (decide_eq_false hi.not_ge)
  · exact exec_noSchedule rfl hd (decide_eq_true hi) hk
  · exact rndf_runsRound s ⟨i, h⟩ hd hk

/-- Settles O26: the mode, the index and the schedule are tested in this order, and then one round runs. -/
theorem rndiRunsOneInverseRound : Obligations.RndiRunsOneInverseRound := by
  intro s i _
  refine ⟨rfl, malformedWordsRaise (.inl rfl) s, exec_normal rfl, fun hd hi => ?_, fun hd hi hk => ?_,
    fun hd hk h => ?_⟩
  · exact exec_illegalArg hd (decide_eq_false hi.not_ge)
  · exact exec_noSchedule rfl hd (decide_eq_true hi) hk
  · exact rndi_runsRound s ⟨i, h⟩ hd hk

/-! ### Rounds in a row -/

theorem runCommands_cons_of_next {i : Instr} {s t : State} (h : exec i s = .next t) (is : List Instr) :
    runCommands (i :: is) s = runCommands is t := by
  rw [runCommands, h]

/-- Round commands run one after another fold their rounds over the Block in `(L, R)`, in the order of their indices. -/
theorem runCommands_rounds {c : Nat → Instr} {f : Block → Word → Block} (hc : RunsRound c f) {is : List (Fin 27)}
    (hne : is ≠ []) {s : State} (hd : s.diag = true) (hk : s.rkv = true) :
    runCommands ((is.map Fin.val).map c) s =
      .next (endCommand okCode (s.withBlock ((is.map s.rk.get).foldl f s.block))) := by
  induction is generalizing s with
  | nil => exact absurd rfl hne
  | cons i is ih =>
    rw [List.map_cons, List.map_cons, runCommands_cons_of_next (hc s i hd hk)]
    cases is with
    | nil => rfl
    | cons j js => exact ih nofun hd hk

/-- The schedule is its entries in the order of their indices (R23). -/
theorem map_get_finRange (rk : RoundKeys) : (List.finRange 27).map rk.get = rk.toList := by
  refine List.ext_getElem (by simp) fun n _ _ => ?_
  simp [Vector.get]

/-- RNDF 0 to 26 in order encrypt the Block in `(L, R)` (R127, R150). -/
theorem runCommands_rndf_all {s : State} (hd : s.diag = true) (hk : s.rkv = true) :
    runCommands ((List.range 27).map Instr.rndf) s =
      .next (endCommand okCode (s.withBlock (encryptBlock s.rk s.block))) := by
  have h := runCommands_rounds rndf_runsRound (is := List.finRange 27) (by decide) hd hk
  rwa [map_get_finRange, List.map_coe_finRange_eq_range] at h

/-- RNDI 26 down to 0 in order decrypt the Block in `(L, R)` (R128, R151). -/
theorem runCommands_rndi_all {s : State} (hd : s.diag = true) (hk : s.rkv = true) :
    runCommands ((List.range 27).reverse.map Instr.rndi) s =
      .next (endCommand okCode (s.withBlock (decryptBlock s.rk s.block))) := by
  have h := runCommands_rounds rndi_runsRound (is := (List.finRange 27).reverse) (by decide) hd hk
  rwa [List.map_reverse (f := Fin.val), List.map_reverse (f := s.rk.get), map_get_finRange,
    List.map_coe_finRange_eq_range] at h

/-- Settles O36: the 27 rounds fold over the schedule as the block transform does, and only `RND` differs. -/
theorem twentySevenRoundsAreOneBlockCommand : Obligations.TwentySevenRoundsAreOneBlockCommand := by
  intro s hd hk
  refine ⟨?_, ?_, _, runCommands_rndf_all hd hk⟩
  · rw [runCommands_rndf_all hd hk, exec_registerOnly (i := .encb) rfl hd rfl (.inr hk), effect, encryptRounds_eq]
    rfl
  · rw [runCommands_rndi_all hd hk, exec_registerOnly (i := .decb) rfl hd rfl (.inr hk), effect, decryptRounds_eq]
    rfl

end Sys2Proof.Machine

/-! PROOF. Statements about the key schedule: the recurrence as forward rounds, which key word each round key first depends
on, and the command KEYEXP (42_key_schedule.md). -/

namespace Sys2Proof.Machine

open Sys2Proof.Laws.WordFields

/-! ### The recurrence as forward rounds -/

/-- Slot `s` of the buffer `a` before iteration `i` (R135). -/
def scheduleSlot (k : Key) (i s : Nat) : Word := (scheduleAfter k i).a[s]?.getD 0

/-- `b` before iteration `i` (R135). -/
def scheduleB (k : Key) (i : Nat) : Word := (scheduleAfter k i).b

/-- The round iteration `i` runs: the counter is the subkey, slot `i mod 3` the left Word, `b` the right (R136). -/
def scheduleRound (k : Key) (i : Nat) : Block :=
  roundFwd ⟨scheduleSlot k i (i % 3), scheduleB k i⟩ (BitVec.ofNat 64 i)

theorem scheduleSlot_eq_getElem (k : Key) (i : Nat) {s : Nat} (hs : s < 3) :
    scheduleSlot k i s = (scheduleAfter k i).a[s] := by
  simp [scheduleSlot, hs]

/-- An iteration stores its round's two Words, in the slot and in `b` (R136). -/
theorem scheduleAfter_succ (k : Key) (i : Nat) :
    scheduleAfter k (i + 1) =
      ⟨(scheduleAfter k i).a.set (i % 3) (scheduleRound k i).left (Nat.mod_lt i (by decide)), (scheduleRound k i).right⟩ := by
  rw [scheduleRound, scheduleSlot_eq_getElem k i (Nat.mod_lt i (by decide))]
  rfl

theorem scheduleB_succ (k : Key) (i : Nat) : scheduleB k (i + 1) = (scheduleRound k i).right := by
  rw [scheduleB, scheduleAfter_succ]

theorem scheduleSlot_succ_same (k : Key) (i : Nat) : scheduleSlot k (i + 1) (i % 3) = (scheduleRound k i).left := by
  simp [scheduleSlot_eq_getElem k _ (Nat.mod_lt i (by decide : 3 > 0)), scheduleAfter_succ]

theorem scheduleSlot_succ_of_ne (k : Key) {i s : Nat} (h : s ≠ i % 3) : scheduleSlot k (i + 1) s = scheduleSlot k i s := by
  rw [scheduleSlot, scheduleAfter_succ, Vector.getElem?_set_ne _ h.symm, scheduleSlot]

/-- Settles O15: the variables are those of the recurrence, and an iteration stores its round's two Words. -/
theorem keyScheduleIsTheRecurrence : Obligations.KeyScheduleIsTheRecurrence := by
  intro k
  refine ⟨scheduleSlot k, scheduleB k, rfl, rfl, rfl, rfl, fun i _ => ⟨?_, ?_, fun s _ hs => ?_⟩, keySchedule_get k⟩
  · exact scheduleSlot_succ_same k i
  · exact scheduleB_succ k i
  · exact scheduleSlot_succ_of_ne k hs

/-! ### The key words' first influence -/

/-- Until iteration `s` writes it, slot `s` holds the key word it was loaded with (R140). -/
theorem scheduleSlot_of_le (k : Key) {i s : Nat} (hs : s < 3) (h : i ≤ s) : scheduleSlot k i s = k[s + 1] := by
  induction i with
  | zero =>
    rw [scheduleSlot_eq_getElem k 0 hs]
    match s with
    | 0 | 1 | 2 => rfl
  | succ i ih =>
    have hne : s ≠ i % 3 := by rw [Nat.mod_eq_of_lt (by omega)]; omega
    rw [scheduleSlot_succ_of_ne k hne, ih (by omega)]

/-- The first three iterations each take a new key word as the left Word of their round (R140). -/
theorem keySchedule_get_succ (k : Key) {i : Nat} (hi : i < 3) :
    (keySchedule k).get ⟨i + 1, by omega⟩ =
      (roundFwd ⟨k[i + 1], (keySchedule k).get ⟨i, by omega⟩⟩ (BitVec.ofNat 64 i)).right := by
  have h := scheduleB_succ k i
  rw [scheduleRound, Nat.mod_eq_of_lt hi, scheduleSlot_of_le k hi le_rfl] at h
  rw [keySchedule_get, keySchedule_get]
  exact h

theorem ror64_inj {x y : Word} {r : RotAmount} : ror64 x r = ror64 y r ↔ x = y :=
  (Function.LeftInverse.injective (g := (rol64 · r)) (rol64_ror64 · r)).eq_iff

/-- Of the right Word of a round, the left Word that goes in is a one-to-one function (R120). -/
theorem roundFwd_right_inj {l l' r k : Word} : (roundFwd ⟨l, r⟩ k).right = (roundFwd ⟨l', r⟩ k).right ↔ l = l' := by
  simp [roundFwd, ror64_inj]

/-- While a round key is shared, the next is shared exactly when the key word it takes in is (R140). -/
theorem keySchedule_get_succ_eq_iff {k k' : Key} {i : Nat} (hi : i < 3)
    (h : (keySchedule k).get ⟨i, by omega⟩ = (keySchedule k').get ⟨i, by omega⟩) :
    (keySchedule k).get ⟨i + 1, by omega⟩ = (keySchedule k').get ⟨i + 1, by omega⟩ ↔ k[i + 1] = k'[i + 1] := by
  rw [keySchedule_get_succ k hi, keySchedule_get_succ k' hi, h, roundFwd_right_inj]

/-- Settles O16: `rk[0]` is `k0`, and from there on each shared key word gives one more shared round key. -/
theorem keyScheduleFirstEntries : Obligations.KeyScheduleFirstEntries := by
  have entry0 (k : Key) : (keySchedule k).get 0 = k[0] := keySchedule_get k 0
  have entry1 {k k' : Key} (h0 : k[0] = k'[0]) : (keySchedule k).get 1 = (keySchedule k').get 1 ↔ k[1] = k'[1] :=
    keySchedule_get_succ_eq_iff (i := 0) (by decide) ((entry0 k).trans (h0.trans (entry0 k').symm))
  have entry2 {k k' : Key} (h0 : k[0] = k'[0]) (h1 : k[1] = k'[1]) :
      (keySchedule k).get 2 = (keySchedule k').get 2 ↔ k[2] = k'[2] :=
    keySchedule_get_succ_eq_iff (i := 1) (by decide) ((entry1 h0).2 h1)
  have entry3 {k k' : Key} (h0 : k[0] = k'[0]) (h1 : k[1] = k'[1]) (h2 : k[2] = k'[2]) :
      (keySchedule k).get 3 = (keySchedule k').get 3 ↔ k[3] = k'[3] :=
    keySchedule_get_succ_eq_iff (i := 2) (by decide) ((entry2 h0 h1).2 h2)
  exact ⟨entry0,
    fun _ _ h0 h1 => (entry1 h0).2 h1,
    fun _ _ h0 h1 h2 => (entry2 h0 h1).2 h2,
    fun _ _ h0 => mt (entry1 h0).1,
    fun _ _ h0 h1 => mt (entry2 h0 h1).1,
    fun _ _ h0 h1 h2 => mt (entry3 h0 h1 h2).1,
    by decide⟩

/-! ### The command KEYEXP -/

/-- KEYEXP answers a next state from every state, and this one (R137, R138, R41). -/
theorem exec_keyexp (s : State) :
    exec .keyexp s = .next { s with
      rk := keySchedule s.key
      rkv := true
      err := 0
      busy := false
      ksB := (keySchedule s.key).get 26
      ksI := 26
      ksA := (scheduleAfter s.key 26).a } := by
  rw [exec_of_no_error (firstError_keyexp s) (Nat.zero_le _), effect, ksRun_eq]
  rfl

/-- Outside the rows of ROR, ROL, RNDF and RNDI no command has an argument (R73). -/
theorem arg_eq_zero_of_opc {i : Instr} (h : opc i < 0x10 ∨ 0x13 < opc i) : arg i = 0 := by
  cases i with
  | ror _ | rol _ | rndf _ | rndi _ => simp [opc] at h
  | keyexp | enct | dect | encb | decb | ldblk | stblk => rfl

/-- Settles O27: KEYEXP has no check to fail, and its row takes no argument. -/
theorem keyexpComputesTheSchedule : Obligations.KeyexpComputesTheSchedule := by
  intro s
  have hrow (i : Instr) (h : opc i = 0x01) : arg i = 0 := arg_eq_zero_of_opc (.inl (h ▸ by decide))
  exact ⟨rfl, malformedWordsRaise (.inr hrow) s, exec_keyexp s⟩

/-- Settles O28: the next state is a function of the fields KEYEXP keeps. -/
theorem keyexpTwiceIsKeyexp : Obligations.KeyexpTwiceIsKeyexp := by
  intro s t h
  rw [exec_keyexp] at h
  cases h
  rw [exec_keyexp]

/-- Settles O48: `exec_keyexp` names every field KEYEXP writes. -/
theorem keyexpFrame : Obligations.KeyexpFrame := by
  intro s t h
  rw [exec_keyexp] at h
  cases h
  exact ⟨rfl, fun _ => rfl⟩

end Sys2Proof.Machine

/-! PROOF. Statements about the block cipher: encryption and decryption as inverses of each other, their rounds in order, and
the commands ENCB and DECB (43_block_cipher.md). -/

namespace Sys2Proof.Machine

open Sys2Proof.Laws.WordFields

/-! ### The block transforms -/

/-- Settles O13: the rounds of one transform are undone by the other's, the last one first. -/
theorem blockTransformsInvertEachOther : Obligations.BlockTransformsInvertEachOther :=
  fun b rk => ⟨decryptBlock_encryptBlock rk b, encryptBlock_decryptBlock rk b⟩

/-- The Block before forward round `i` of an encryption, and after the last at `i` = 27 (R150). -/
def encryptTrace (rk : RoundKeys) (b : Block) (i : Nat) : Block := (rk.toList.take i).foldl roundFwd b

/-- The Block after inverse round `i` of a decryption, and before the first at `i` = 27 (R151). -/
def decryptTrace (rk : RoundKeys) (b : Block) (i : Nat) : Block := (rk.toList.drop i).reverse.foldl roundInv b

theorem encryptTrace_succ (rk : RoundKeys) (b : Block) (i : Fin 27) :
    encryptTrace rk b (i.val + 1) = roundFwd (encryptTrace rk b i.val) (rk.get i) := by
  simp [encryptTrace, take_succ_rk]

theorem encryptTrace_last (rk : RoundKeys) (b : Block) : encryptTrace rk b 27 = encryptBlock rk b := by
  rw [encryptTrace, List.take_of_length_le (by simp), encryptBlock]

theorem drop_rk (rk : RoundKeys) (i : Fin 27) : rk.toList.drop i.val = rk.get i :: rk.toList.drop (i.val + 1) := by
  rw [List.drop_eq_getElem_cons (by simp)]
  rfl

theorem decryptTrace_eq_roundInv (rk : RoundKeys) (b : Block) (i : Fin 27) :
    decryptTrace rk b i.val = roundInv (decryptTrace rk b (i.val + 1)) (rk.get i) := by
  simp [decryptTrace, drop_rk]

theorem decryptTrace_first (rk : RoundKeys) (b : Block) : decryptTrace rk b 27 = b := by
  rw [decryptTrace, List.drop_of_length_le (by simp)]
  rfl

/-- Settles O14: the traces of the two transforms run through the round keys in the order of R150 and R151. -/
theorem blockTransformsAreTheRoundsInOrder : Obligations.BlockTransformsAreTheRoundsInOrder := fun b rk =>
  ⟨⟨encryptTrace rk b, rfl, encryptTrace_succ rk b, (encryptTrace_last rk b).symm⟩,
    ⟨decryptTrace rk b, decryptTrace_first rk b, decryptTrace_eq_roundInv rk b, rfl⟩⟩

/-! ### The commands ENCB and DECB -/

/-- ENCB with no error encrypts the Block in `(L, R)` and leaves `RND` at 26 (R153, R155). -/
theorem exec_encb {s : State} (hd : s.diag = true) (hk : s.rkv = true) :
    exec .encb s = .next (endCommand okCode { s.withBlock (encryptBlock s.rk s.block) with rnd := 26 }) := by
  rw [exec_registerOnly rfl hd rfl (.inr hk), effect, encryptRounds_eq]
  rfl

/-- DECB with no error decrypts the Block in `(L, R)` and leaves `RND` at 0 (R154, R155). -/
theorem exec_decb {s : State} (hd : s.diag = true) (hk : s.rkv = true) :
    exec .decb s = .next (endCommand okCode { s.withBlock (decryptBlock s.rk s.block) with rnd := 0 }) := by
  rw [exec_registerOnly rfl hd rfl (.inr hk), effect, decryptRounds_eq]
  rfl

/-- Settles O29: the mode and then the schedule are tested, and the encrypt rounds run over the whole schedule. -/
theorem encbEncryptsTheBlock : Obligations.EncbEncryptsTheBlock := by
  intro s
  have hrow (i : Instr) (h : opc i = 0x14) : arg i = 0 := arg_eq_zero_of_opc (.inr (h ▸ by decide))
  exact ⟨rfl, malformedWordsRaise (.inr hrow) s, exec_normal rfl, fun hd => exec_noSchedule rfl hd rfl, exec_encb⟩

/-- Settles O30: the mode and then the schedule are tested, and the decrypt rounds run over the whole schedule. -/
theorem decbDecryptsTheBlock : Obligations.DecbDecryptsTheBlock := by
  intro s
  have hrow (i : Instr) (h : opc i = 0x15) : arg i = 0 := arg_eq_zero_of_opc (.inr (h ▸ by decide))
  exact ⟨rfl, malformedWordsRaise (.inr hrow) s, exec_normal rfl, fun hd => exec_noSchedule rfl hd rfl, exec_decb⟩

end Sys2Proof.Machine

/-! PROOF. Statements about the ECB driver: padding, the ECB functions window by window, and the commands ENCT, DECT, LDBLK
and STBLK (44_ecb_driver.md). -/

namespace Sys2Proof.Machine

open Sys2Proof.Laws.WordFields

/-! ### Padding -/

/-- Whole windows need no padding (R160). -/
theorem padLen_of_whole {n : Nat} (h : n % 16 = 0) : padLen n = n := by
  simp only [padLen]; omega

/-- Whole windows in front of a text do not change its padding (R160). -/
theorem padLen_add_of_whole {m : Nat} (n : Nat) (h : m % 16 = 0) : padLen (m + n) = m + padLen n := by
  simp only [padLen]; omega

theorem pad_of_whole {p : List Byte} (h : p.length % 16 = 0) : pad p = p := by
  rw [pad, padLen_of_whole h, Nat.sub_self, List.replicate_zero, List.append_nil]

theorem pad_append_of_whole {p : List Byte} (q : List Byte) (h : p.length % 16 = 0) : pad (p ++ q) = p ++ pad q := by
  rw [pad, pad, List.length_append, padLen_add_of_whole _ h, Nat.add_sub_add_left, List.append_assoc]

/-- Settles O18: PadLen rounds up to whole windows. -/
theorem paddingFillsTheLastWindow : Obligations.PaddingFillsTheLastWindow := by
  refine ⟨fun n => ?_, fun p => ⟨rfl, length_pad p⟩⟩
  have hlt := padLen_lt n
  have hle := le_padLen n
  exact ⟨rfl, padLen_mod n, hle, by omega, padLen_of_whole, fun h => by omega⟩

/-- Settles O19. -/
theorem padLenBoundaryValues : Obligations.PadLenBoundaryValues := by
  unfold Obligations.PadLenBoundaryValues
  decide

/-! ### The ECB functions window by window -/

/-- A transform of the windows puts out as many bytes as whole windows hold. -/
theorem length_ecbMap_of_whole (f : Block → Block) {q : List Byte} (h : q.length % 16 = 0) :
    (ecbMap f q).length = q.length := by
  rw [length_ecbMap]; omega

/-- The encoding of a Block is one window. -/
theorem ecbMap_bytesOfBlock (f : Block → Block) (b : Block) : ecbMap f (bytesOfBlock b) = bytesOfBlock (f b) := by
  rw [ecbMap_cons f (by simp), List.take_of_length_le (by simp), blockOfBytes_bytesOfBlock,
    ecbMap_nil_of_lt f (by simp), List.append_nil]

/-- Window `j` of the output is the transform of window `j` of the input (R163, R164, R166). -/
theorem ecbMap_window (f : Block → Block) {q : List Byte} {j : Nat} (h : 16 * (j + 1) ≤ q.length) :
    ((ecbMap f q).drop (16 * j)).take 16 = bytesOfBlock (f (blockOfBytes ((q.drop (16 * j)).take 16))) := by
  have hbefore : (q.take (16 * j)).length = 16 * j := List.length_take_of_le (by omega)
  have hfrom : 16 ≤ (q.drop (16 * j)).length := by rw [List.length_drop]; omega
  have hsplit : ecbMap f q = ecbMap f (q.take (16 * j)) ++ ecbMap f (q.drop (16 * j)) := by
    rw [← ecbMap_append f (by omega), List.take_append_drop]
  rw [hsplit, List.drop_left' (by rw [length_ecbMap_of_whole f (by omega), hbefore]), ecbMap_cons f hfrom,
    List.take_left' (length_bytesOfBlock _)]

/-- The last 16 bytes put out are the transform of the last window. -/
theorem ecbMap_lastWindow (f : Block → Block) {q : List Byte} {j : Nat} (h : q.length = 16 * (j + 1)) :
    (ecbMap f q).drop ((ecbMap f q).length - 16) = bytesOfBlock (f (blockOfBytes ((q.drop (16 * j)).take 16))) := by
  have hlen : (ecbMap f q).length = 16 * j + 16 := by rw [length_ecbMap_of_whole f (by omega), h, Nat.mul_succ]
  rw [hlen, Nat.add_sub_cancel, ← ecbMap_window f h.ge, List.take_of_length_le (by rw [List.length_drop]; omega)]

/-- On whole windows, a transform of the Blocks that undoes another undoes it window by window. -/
theorem ecbMap_cancel {f g : Block → Block} (h : ∀ b, g (f b) = b) {q : List Byte} {m : Nat} (hq : q.length = 16 * m) :
    ecbMap g (ecbMap f q) = q := by
  induction m generalizing q with
  | zero =>
    obtain rfl : q = [] := List.length_eq_zero_iff.mp hq
    rw [ecbMap_nil_of_lt f (by simp), ecbMap_nil_of_lt g (by simp)]
  | succ m ih =>
    rw [ecbMap_cons f (by omega), ecbMap_append g (by simp), ecbMap_bytesOfBlock, h,
      bytesOfBlock_blockOfBytes (List.length_take_of_le (by omega)), ih (by rw [List.length_drop]; omega),
      List.take_append_drop]

/-- The padded text is `padLen / 16` windows. -/
theorem length_pad_eq_windows (p : List Byte) : (pad p).length = 16 * (padLen p.length / 16) := by
  have hmod := padLen_mod p.length
  rw [length_pad]; omega

theorem length_ecbEncrypt (rk : RoundKeys) (p : List Byte) : (ecbEncrypt rk p).length = padLen p.length := by
  rw [ecbEncrypt, length_ecbMap_of_whole _ (by rw [length_pad]; exact padLen_mod _), length_pad]

theorem ecbDecrypt_ecbEncrypt (rk : RoundKeys) (p : List Byte) : ecbDecrypt rk (ecbEncrypt rk p) = pad p :=
  ecbMap_cancel (decryptBlock_encryptBlock rk) (length_pad_eq_windows p)

/-- Settles O20: both functions transform window by window, the one the padded text, the other the text itself. -/
theorem ecbWindowsAreIndependent : Obligations.EcbWindowsAreIndependent := by
  intro rk p
  have hmod := padLen_mod p.length
  exact ⟨length_ecbEncrypt rk p, fun j hj => ecbMap_window _ (by rw [length_pad]; omega),
    fun h => ⟨length_ecbMap_of_whole _ h, fun j hj => ecbMap_window _ (by omega)⟩⟩

/-- Settles O21: on the windows of the padded text the block transforms undo each other. -/
theorem ecbRoundTripKeepsPadding : Obligations.EcbRoundTripKeepsPadding :=
  fun p rk => ecbDecrypt_ecbEncrypt rk p

/-- Settles O22: whole windows take no padding, and windows are transformed in order. -/
theorem ecbEncryptSplitsAtWindows : Obligations.EcbEncryptSplitsAtWindows := by
  intro p q rk h
  rw [ecbEncrypt, pad_append_of_whole q h, ecbMap_append _ h, ecbEncrypt, pad_of_whole h, ecbEncrypt]

/-! ### The commands ENCT and DECT -/

/-- What a host sees of `s` after a text of `LEN` bytes went in and `c` came out (R172): the text is taken, `c` is put, and
`(L, R)` is the Decode of the last window of `c`, if there is one. -/
def afterText (s : State) (c : List Byte) : State :=
  let last := blockOfBytes (c.drop (c.length - 16))
  { s with
    inp := s.inp.drop (textLen s)
    out := s.out ++ c
    l := if textLen s = 0 then s.l else last.left
    r := if textLen s = 0 then s.r else last.right }

/-- The controller leaves in `(L, R)` the last window it put out; with no window, what was there (R172). -/
theorem ecRun_block (enc : Bool) {s : State} (hm : Memory.wf s.buf = true) (hn : textLen s ≤ s.inp.length)
    (ht : ecTotal enc (textLen s) = padLen (textLen s)) :
    let c := ecbMap (blockTransform enc s.rk) (pad (s.inp.take (textLen s)))
    (ecRun enc s).block = if textLen s = 0 then s.block else blockOfBytes (c.drop (c.length - 16)) := by
  have hlen : (pad (s.inp.take (textLen s))).length = padLen (textLen s) := by
    rw [length_pad, List.length_take_of_le hn]
  have hmod := padLen_mod (textLen s)
  have hle := le_padLen (textLen s)
  dsimp only
  rw [ecRun_eq enc s hn hm ht]
  cases hj : padLen (textLen s) / 16 with
  | zero =>
    have h0 : textLen s = 0 := by omega
    rw [if_pos h0]
    rfl
  | succ j =>
    have h0 : textLen s ≠ 0 := fun h => by rw [h] at hj; cases hj
    rw [if_neg h0, ecbMap_lastWindow _ (j := j) (by omega), blockOfBytes_bytesOfBlock]
    rfl

/-- What a host sees of the controller's work: the registers it writes are `L`, `R` and the two streams, but for the hidden
ones (R172). -/
theorem ecRun_visible (enc : Bool) {s : State} (hm : Memory.wf s.buf = true) (hn : textLen s ≤ s.inp.length)
    (ht : ecTotal enc (textLen s) = padLen (textLen s)) :
    (ecRun enc s).visible =
      (afterText s (ecbMap (blockTransform enc s.rk) (pad (s.inp.take (textLen s))))).visible := by
  obtain ⟨hi, ho⟩ := ecRun_streams enc hm hn ht
  have hb := ecRun_block enc hm hn ht
  have hl := congrArg Block.left hb
  have hr := congrArg Block.right hb
  rw [apply_ite Block.left] at hl
  rw [apply_ite Block.right] at hr
  simp only [State.block] at hl hr
  rw [ecRun_frame]
  simp only [State.visible, afterText, hi, ho, hl, hr]

/-- ENCT with a schedule and its text on IN puts out EcbEncrypt of the text (R165). -/
theorem exec_enct {s : State} (hm : Memory.wf s.buf = true) (hr : s.rkv = true) (hn : textLen s ≤ s.inp.length) :
    ∃ t : State, exec .enct s = .next t ∧
      t.visible = (endCommand okCode (afterText s (ecbEncrypt s.rk (s.inp.take (textLen s))))).visible :=
  ⟨_, exec_of_no_error (firstError_enct hr) hn, congrArg (endCommand okCode) (ecRun_visible true hm hn rfl)⟩

/-- DECT with a schedule and a text of whole windows on IN puts out EcbDecrypt of the text (R170). -/
theorem exec_dect {s : State} (hm : Memory.wf s.buf = true) (hr : s.rkv = true) (hw : textLen s % 16 = 0)
    (hn : textLen s ≤ s.inp.length) :
    ∃ t : State, exec .dect s = .next t ∧
      t.visible = (endCommand okCode (afterText s (ecbDecrypt s.rk (s.inp.take (textLen s))))).visible := by
  have hv := ecRun_visible false hm hn (ecTotal_of_whole hw false)
  rw [pad_of_whole (by rwa [List.length_take_of_le hn])] at hv
  exact ⟨_, exec_of_no_error (firstError_dect hr hw) hn, congrArg (endCommand okCode) hv⟩

/-- Settles O31: ENCT has only the schedule to test, and its controller puts out the encrypted text. -/
theorem enctEncryptsTheText : Obligations.EnctEncryptsTheText := by
  intro s hm
  have hrow (i : Instr) (h : opc i = 0x02) : arg i = 0 := arg_eq_zero_of_opc (.inl (h ▸ by decide))
  exact ⟨rfl, malformedWordsRaise (.inr hrow) s, exec_enct_noSchedule, exec_enct hm⟩

/-- With a schedule, a text that is not whole windows is refused before anything is taken (R171, R217). -/
theorem exec_dect_ragged {s : State} (hr : s.rkv = true) (hw : s.len.toNat % 16 ≠ 0) :
    exec .dect s = .next { s with err := 1, busy := false } :=
  exec_of_error (e := .invalidLength) (by simp [firstError, needsDiag, argLegal, hr, hw])

/-- Settles O32: DECT tests the schedule and then the length, and its controller puts out the decrypted text. -/
theorem dectDecryptsTheText : Obligations.DectDecryptsTheText := by
  intro s hm
  have hrow (i : Instr) (h : opc i = 0x03) : arg i = 0 := arg_eq_zero_of_opc (.inl (h ▸ by decide))
  refine ⟨rfl, malformedWordsRaise (.inr hrow) s, exec_dect_noSchedule, exec_dect_ragged, fun hr hw hn => ?_⟩
  obtain ⟨t, ht, hv⟩ := exec_dect hm hr hw hn
  have hd : (ecbDecrypt s.rk (s.inp.take s.len.toNat)).length = s.len.toNat := by
    rw [ecbDecrypt, length_ecbMap_of_whole _ (by rwa [List.length_take_of_le hn]), List.length_take_of_le hn]
  simp only [afterText, textLen, hd] at hv
  exact ⟨t, ht, hv⟩

/-- Settles O39: IN holds the encrypted text, which DECT turns into the padded text. -/
theorem dectOfEnctIsThePaddedText : Obligations.DectOfEnctIsThePaddedText := by
  intro s t u hm hr hn _ h hum hur hrk hlen hinp
  obtain ⟨t', ht, htv⟩ := exec_enct hm hr hn
  obtain rfl : t' = t := Host.Outcome.next.inj (ht.symm.trans h)
  have hout : t'.out = s.out ++ ecbEncrypt s.rk (s.inp.take s.len.toNat) := congrArg State.out htv
  rw [hout, List.drop_left] at hinp
  have hulen : u.inp.length = textLen u := by
    rw [hinp, length_ecbEncrypt, List.length_take_of_le hn, textLen, hlen]
  obtain ⟨v, hv, hvv⟩ := exec_dect hum hur (by rw [textLen, hlen]; exact padLen_mod _) hulen.ge
  rw [List.take_of_length_le hulen.le, hrk] at hvv
  have hvout : v.out = u.out ++ ecbDecrypt s.rk u.inp := congrArg State.out hvv
  have hvinp : v.inp = u.inp.drop (textLen u) := congrArg State.inp hvv
  refine ⟨v, hv, ?_, ?_, congrArg State.err hvv⟩
  · rw [hvout, hinp, ecbDecrypt_ecbEncrypt]
  · rw [hvinp, List.drop_eq_nil_of_le hulen.le]

/-! ### The commands LDBLK and STBLK -/

/-- `s` after LDBLK: the next 16 bytes of IN are in `BUF`, and decoded in `(L, R)` (R175). -/
def afterLdblk (s : State) : State :=
  endCommand okCode
    { s.withBlock (blockOfBytes (s.inp.take 16)) with
      inp := s.inp.drop 16, buf := Memory.writeBytes s.buf 0 (s.inp.take 16), cnt := 0 }

/-- LDBLK completes in diagnostic mode with 16 bytes on IN (R175). -/
theorem exec_ldblk {s : State} (hm : Memory.wf s.buf = true) (hd : s.diag = true) (hn : 16 ≤ s.inp.length) :
    exec .ldblk s = .next (afterLdblk s) := by
  obtain ⟨hl, hr⟩ := memRead_writeBytes (s.inp.take 16) hm (List.length_take_of_le hn)
  rw [exec_of_no_error (i := .ldblk) (by simp [firstError, argLegal, needsSchedule, hd]) hn, effect, ldblkEffect, ecLoad]
  dsimp only [Config.blockBytes]
  rw [hl, hr]
  rfl

/-- STBLK in diagnostic mode encodes `(L, R)` into `BUF` and puts it to OUT (R176). -/
theorem exec_stblk {s : State} (hm : Memory.wf s.buf = true) (hd : s.diag = true) :
    exec .stblk s = .next (endCommand okCode
      { s with
        out := s.out ++ bytesOfBlock s.block, buf := Memory.writeBytes s.buf 0 (bytesOfBlock s.block), cnt := 0 }) := by
  have hstore : memWrite (memWrite s.buf 0 s.l) 8 s.r = Memory.writeBytes s.buf 0 (bytesOfBlock s.block) :=
    memWrite_block s.buf s.block
  have hput := readBytes_writeBytes_all (bytesOfBlock s.block) hm (by simp)
  rw [exec_of_no_error (by simp [firstError, argLegal, needsSchedule, hd]) (Nat.zero_le _), effect, putBuf, ecStore]
  dsimp only [Config.blockBytes]
  rw [hstore, hput]

/-- Settles O34: LDBLK tests the mode, and `BUF` reads as the 16 bytes it was filled with. -/
theorem ldblkLoadsTheBlock : Obligations.LdblkLoadsTheBlock := by
  intro s hm
  have hrow (i : Instr) (h : opc i = 0x16) : arg i = 0 := arg_eq_zero_of_opc (.inr (h ▸ by decide))
  exact ⟨rfl, malformedWordsRaise (.inr hrow) s, exec_normal rfl, fun hd hn => ⟨_, exec_ldblk hm hd hn,
    fun a => Memory.read_writeBytes_all _ a hm (List.length_take_of_le hn)⟩⟩

/-- Settles O35: STBLK tests the mode, and `BUF` reads as the 16 bytes of the Block. -/
theorem stblkStoresTheBlock : Obligations.StblkStoresTheBlock := by
  intro s hm
  have hrow (i : Instr) (h : opc i = 0x17) : arg i = 0 := arg_eq_zero_of_opc (.inr (h ▸ by decide))
  exact ⟨rfl, malformedWordsRaise (.inr hrow) s, exec_normal rfl, fun hd => ⟨_, exec_stblk hm hd,
    fun a => Memory.read_writeBytes_all _ a hm (length_bytesOfBlock _)⟩⟩

/-- Settles O38: the Block LDBLK decodes from 16 bytes is encoded by STBLK as those bytes. -/
theorem ldblkThenStblkPutsTheBytesBack : Obligations.LdblkThenStblkPutsTheBytesBack := by
  intro s hm hd hn
  have hlen : (s.inp.take 16).length = 16 := List.length_take_of_le hn
  have hwf : Memory.wf (afterLdblk s).buf = true := Memory.wf_writeBytes _ hm (by omega)
  have hdiag : (afterLdblk s).diag = true := hd
  rw [runCommands_cons_of_next (exec_ldblk hm hd hn), runCommands_cons_of_next (exec_stblk hwf hdiag), runCommands]
  exact ⟨_, rfl, congrArg (s.out ++ ·) (bytesOfBlock_blockOfBytes hlen), rfl⟩

/-! ### What the byte commands leave alone -/

theorem textCommand_frame {i : Instr} {s u : State} (hi : i ∈ [Instr.enct, .dect]) (hu : u = s ∨ u = effect i s) :
    u = { s with l := u.l, r := u.r, inp := u.inp, out := u.out, buf := u.buf, cnt := u.cnt, blk := u.blk,
                 rnd := u.rnd } := by
  simp only [List.mem_cons, List.not_mem_nil, or_false] at hi
  rcases hu with rfl | rfl
  · rfl
  · rcases hi with rfl | rfl <;> exact ecRun_frame _ s

theorem ldblk_frame {s u : State} (hu : u = s ∨ u = effect .ldblk s) :
    u = { s with l := u.l, r := u.r, inp := u.inp, buf := u.buf, cnt := u.cnt } := by
  rcases hu with rfl | rfl
  · rfl
  · dsimp only [effect, ldblkEffect, ecLoad]

theorem stblk_frame {s u : State} (hu : u = s ∨ u = effect .stblk s) :
    u = { s with out := u.out, buf := u.buf, cnt := u.cnt } := by
  rcases hu with rfl | rfl
  · rfl
  · dsimp only [effect, putBuf, ecStore]

/-- A command that answers a next state keeps the canonical form of `BUF`. -/
theorem wf_exec {i : Instr} {s t : State} (hm : Memory.wf s.buf = true) (h : exec i s = .next t) :
    Memory.wf t.buf = true := by
  obtain ⟨c, u, rfl, rfl | rfl⟩ := exec_next_endCommand h
  · exact hm
  · exact wf_effect i s hm

/-- Settles O49: each command ended on the state it found or on its effect, which writes the registers named; and a canonical
`BUF` reads 0 from offset 16 on. -/
theorem byteCommandsFrame : Obligations.ByteCommandsFrame := by
  intro s t hm
  refine ⟨fun i hi h => ?_, fun h => ?_, fun h => ?_, fun i _ h a ha => ?_⟩
  · obtain ⟨c, u, rfl, hu⟩ := exec_next_endCommand h
    exact congrArg (endCommand c) (textCommand_frame hi hu)
  · obtain ⟨c, u, rfl, hu⟩ := exec_next_endCommand h
    exact congrArg (endCommand c) (ldblk_frame hu)
  · obtain ⟨c, u, rfl, hu⟩ := exec_next_endCommand h
    exact congrArg (endCommand c) (stblk_frame hu)
  · rw [Memory.read_above (wf_exec hm h) ha, Memory.read_above hm ha]

end Sys2Proof.Machine

/-! PROOF. Statements about the register accesses: what `RD` returns and what `WR` stores, for every register number
(45_register_access.md). -/

namespace Sys2Proof.Machine

/-! ### The register map, by register -/

theorem regOf_ctrl {n : RegNum} (h : n.toNat = 0x00) : regOf n = .ctrl := by simp [regOf, h]

theorem regOf_status {n : RegNum} (h : n.toNat = 0x01) : regOf n = .status := by simp [regOf, h]

theorem regOf_cmd {n : RegNum} (h : n.toNat = 0x02) : regOf n = .cmd := by simp [regOf, h]

theorem regOf_len {n : RegNum} (h : n.toNat = 0x03) : regOf n = .len := by simp [regOf, h]

theorem regOf_key {n : RegNum} {i : Fin 4} (h : n.toNat = 0x04 + i.val) : regOf n = .key i := by
  revert n i; decide

theorem regOf_l {n : RegNum} (h : n.toNat = 0x08) : regOf n = .l := by simp [regOf, h]

theorem regOf_r {n : RegNum} (h : n.toNat = 0x09) : regOf n = .r := by simp [regOf, h]

theorem regOf_rk {n : RegNum} {i : Fin 27} (h : n.toNat = 0x20 + i.val) : regOf n = .rk i := by
  revert n i; decide

theorem regOf_reserved {n : RegNum} (h : 0x0A ≤ n.toNat ∧ n.toNat ≤ 0x1F ∨ 0x3B ≤ n.toNat) : regOf n = .reserved := by
  revert n; decide

/-- The numbers above `R` name an entry of `RK` or nothing (R29, R30). -/
theorem regOf_above {n : RegNum} (h : 0x0A ≤ n.toNat) : (∃ i, regOf n = .rk i) ∨ regOf n = .reserved := by
  revert n; decide

/-! ### Reads -/

theorem ctrlWord_eq (s : State) : ctrlWord s = BitVec.ofNat 64 s.diag.toNat := by
  cases hd : s.diag <;> simp [ctrlWord, hd]

/-- The fields of `STATUS` stand at bits 7:4, 1 and 0 (R26). -/
theorem statusWord_eq (s : State) :
    statusWord s = BitVec.ofNat 64 (16 * s.err.toNat + 2 * s.rkv.toNat + s.busy.toNat) := by
  have fields : ∀ (e : BitVec 4) (k b : Bool), 0#56 ++ e ++ 0#2 ++ BitVec.ofBool k ++ BitVec.ofBool b =
      BitVec.ofNat 64 (16 * e.toNat + 2 * k.toNat + b.toNat) := by decide
  exact fields s.err s.rkv s.busy

theorem readReg_host (s : State) (rest : List HostAct) (g : Reg) : readReg { s with host := rest } g = readReg s g := by
  cases g <;> rfl

theorem step_read {s : State} {n : RegNum} {rest : List HostAct} (hb : s.busy = false) (h : s.host = .rd n :: rest) :
    step s = .next { s with host := rest, rdata := s.rdata ++ [readReg s (regOf n)] } := by
  have idle (p : Prop) : ¬(s.busy = true ∧ p) := by simp [hb]
  rw [step_act h, act, readAct, if_neg (idle _), readReg_host]

/-- Settles O51: the read returns `readReg` of the register the number names. -/
theorem readReturnsTheRegister : Obligations.ReadReturnsTheRegister := by
  intro s n rest hb h
  have value {g : Reg} (hg : regOf n = g) : readReg s (regOf n) = readReg s g := congrArg (readReg s) hg
  exact ⟨readReg s (regOf n), step_read hb h,
    fun hn => (value (regOf_ctrl hn)).trans (ctrlWord_eq s),
    fun hn => (value (regOf_status hn)).trans (statusWord_eq s),
    fun hn => value (regOf_cmd hn),
    fun hn => (value (regOf_len hn)).trans (BitVec.ofNat_toNat 64 s.len).symm,
    fun _ hn => value (regOf_key hn),
    fun hn => value (regOf_l hn),
    fun hn => value (regOf_r hn),
    fun h0A h1F => value (regOf_reserved (.inl ⟨h0A, h1F⟩)),
    fun _ hn => value (regOf_rk hn),
    fun hn => value (regOf_reserved (.inr hn))⟩

/-! ### Writes -/

theorem step_write {s : State} {n : RegNum} {v : Word} {rest : List HostAct} {g : Reg} (hb : s.busy = false)
    (h : s.host = .wr n v :: rest) (hg : regOf n = g) (hc : g ≠ .cmd) :
    step s = .next (writeReg { s with host := rest } v g) := by
  subst hg
  exact step_regWrite hb h (mt (regOf_cmd_iff n).2 hc)

/-- A write to `CTRL` stores bit 0, the parity of the value, and drops the others (R25). -/
theorem writeReg_ctrl (s : State) (v : Word) : writeReg s v .ctrl = { s with diag := decide (v.toNat % 2 = 1) } := by
  rw [writeReg, BitVec.getLsbD, Nat.testBit_zero]

/-- `STATUS`, `RK` and the reserved numbers ignore a write (R191). -/
theorem writeReg_ignored (s : State) {n : RegNum} (v : Word) (h : n.toNat = 0x01 ∨ 0x0A ≤ n.toNat) :
    writeReg s v (regOf n) = s := by
  rcases h with h01 | h0A
  · rw [regOf_status h01, writeReg]
  · rcases regOf_above h0A with ⟨i, hi⟩ | hr
    · rw [hi, writeReg]
    · rw [hr, writeReg]

/-- Settles O52: a write to `CMD` is a command, and every other write is `writeReg` of the register the number names. -/
theorem writeStoresTheRegister : Obligations.WriteStoresTheRegister := by
  intro s n v rest hb h
  have stored {g : Reg} (hg : regOf n = g) (hc : g ≠ .cmd) := step_write hb h hg hc
  refine ⟨fun hn => ?_, fun hn => ?_, fun hn => ?_, fun _ hn => stored (regOf_key hn) nofun,
    fun hn => stored (regOf_l hn) nofun, fun hn => stored (regOf_r hn) nofun, fun hn => ?_⟩
  · rw [stored (regOf_ctrl hn) nofun, writeReg_ctrl]
  · obtain rfl : n = cmdNum := (regOf_cmd_iff n).1 (regOf_cmd hn)
    exact step_cmdWrite hb h
  · rw [stored (regOf_len hn) nofun, writeReg, BitVec.ofNat_toNat]
  · have hc : n ≠ cmdNum := by rintro rfl; exact absurd hn (by decide)
    rw [step_regWrite hb h hc, writeReg_ignored _ v hn]

end Sys2Proof.Machine

/-! PROOF. Statements about the exceptions: the words that are no command, the first error of a command, the cause of each
result code, and the commands of normal mode (60_exceptions.md). -/

namespace Sys2Proof.Machine

open Sys2Proof.Laws Sys2Proof.Laws.WordFields

/-! ### Words that are no command -/

/-- The `OPC` column of R73 lists these opcodes. -/
theorem opc_mem (i : Instr) :
    opc i ∈ [0x01, 0x02, 0x03, 0x10, 0x11, 0x12, 0x13, 0x14, 0x15, 0x16, 0x17] := by
  cases i <;> simp [opc]

/-- A row whose opcode is none of those with an argument wants `ARG` = 0 (R72 step 3). -/
theorem arg_eq_zero_of_opc_mem {i : Instr} (h : opc i ∈ [0x01, 0x02, 0x03, 0x14, 0x15, 0x16, 0x17]) : arg i = 0 := by
  have hrow : opc i < 0x10 ∨ 0x13 < opc i := by
    simp only [List.mem_cons, List.not_mem_nil, or_false] at h
    omega
  exact arg_eq_zero_of_opc hrow

/-- Settles O4: a word that decodes has the fields of its command's row, and each of the three causes contradicts one. -/
theorem illegalWordRaisesIllegalCommand : Obligations.IllegalWordRaisesIllegalCommand := by
  intro s w rest hb hh hbad
  have hno (i : Instr) : decode w ≠ .ok i := by
    intro hd
    obtain ⟨hop, harg, hrsv⟩ := decode_eq_ok_iff_fields.1 hd
    rw [← rsvOf_eq, ← opcOf_eq, ← argOf_eq, hop, harg, hrsv] at hbad
    rcases hbad with hr | ho | ⟨ho, ha⟩
    · exact hr rfl
    · exact ho (opc_mem i)
    · exact ha (arg_eq_zero_of_opc_mem ho)
  rw [step_cmdWrite hb hh, issue_of_not_decodes _ hno, ← hb]

/-! ### The first error -/

/-- Settles O40. -/
theorem firstErrorIsReportedAndChangesOnlyErr : Obligations.FirstErrorIsReportedAndChangesOnlyErr :=
  fun _ _ _ => exec_of_error

/-- Settles O45: the other commands need diagnostic mode. -/
theorem normalModeHasThreeCommands : Obligations.NormalModeHasThreeCommands := by
  intro i s hd
  cases i with
  | keyexp => exact .inl rfl
  | enct => exact .inr (.inl rfl)
  | dect => exact .inr (.inr (.inl rfl))
  | ror _ | rol _ | rndf _ | rndi _ | encb | decb | ldblk | stblk =>
    exact .inr (.inr (.inr (exec_normal rfl hd)))

/-! ### The cause of each result code -/

/-- What makes command `i` raise an error of each kind on `s` (R212 to R215). -/
def ErrorCause (i : Instr) (s : State) : ErrKind → Prop
  | .illegalCommand => needsDiag i = true ∧ s.diag = false
  | .badOperand => argLegal i = false
  | .noSchedule => needsSchedule i = true ∧ s.rkv = false
  | .invalidLength => i = .dect ∧ s.len.toNat % 16 ≠ 0

theorem errorCause_of_firstError {i : Instr} {s : State} {e : ErrKind} (h : firstError i s = some e) :
    ErrorCause i s e := by
  rcases firstError_cases h with ⟨rfl, hc⟩ | ⟨rfl, hc⟩ | ⟨rfl, hc⟩ | ⟨rfl, hc⟩ <;> exact hc

theorem code_ne_okCode (e : ErrKind) : e.code ≠ okCode := by
  cases e <;> decide

theorem code_inj {e e' : ErrKind} : e.code = e'.code ↔ e = e' := by
  cases e <;> cases e' <;> decide

/-- A code in `ERR` says which error was the first (R32, R210). -/
theorem firstError_of_err {i : Instr} {s t : State} {e : ErrKind} (h : exec i s = .next t) (he : t.err = e.code) :
    firstError i s = some e := by
  rcases exec_next_cases h with ⟨e', hf, rfl⟩ | ⟨-, -, rfl⟩
  · rw [hf, code_inj.1 he]
  · exact absurd he.symm (code_ne_okCode e)

theorem errorCause_of_err {i : Instr} {s t : State} {e : ErrKind} (h : exec i s = .next t) (he : t.err = e.code) :
    ErrorCause i s e :=
  errorCause_of_firstError (firstError_of_err h he)

/-- A command leaves in `ERR` a code the hardware writes (R210, R220). -/
theorem codeWritten_exec {i : Instr} {s t : State} (h : exec i s = .next t) : codeWritten t.err = true := by
  rcases exec_next_cases h with ⟨e, -, rfl⟩ | ⟨-, -, rfl⟩
  · exact codeWritten_code e
  · rfl

theorem codeWritten_iff_mem (c : BitVec 4) : codeWritten c = true ↔ c ∈ [0#4, 1#4, 3#4, 4#4, 5#4] := by
  simp [codeWritten, or_assoc]

/-- The rows of R73 that need a schedule. -/
theorem mem_of_needsSchedule {i : Instr} (h : needsSchedule i = true) :
    i ∈ [Instr.enct, .dect, .encb, .decb] ∨ ∃ k, i = .rndf k ∨ i = .rndi k := by
  cases i with
  | enct | dect | encb | decb => exact .inl (by decide)
  | rndf k => exact .inr ⟨k, .inl rfl⟩
  | rndi k => exact .inr ⟨k, .inr rfl⟩
  | keyexp | ror _ | rol _ | ldblk | stblk => cases h

/-- An argument is illegal as a rotation amount outside 1 to 63 or as a round index above 26 (R213). -/
theorem operand_of_illegalArg {i : Instr} (h : argLegal i = false) :
    ∃ k, (i = .ror k ∨ i = .rol k) ∧ ¬(1 ≤ k ∧ k ≤ 63) ∨ (i = .rndf k ∨ i = .rndi k) ∧ 26 < k := by
  cases i with
  | ror k => exact ⟨k, .inl ⟨.inl rfl, by simpa [argLegal] using h⟩⟩
  | rol k => exact ⟨k, .inl ⟨.inr rfl, by simpa [argLegal] using h⟩⟩
  | rndf k => exact ⟨k, .inr ⟨.inl rfl, by simpa [argLegal] using h⟩⟩
  | rndi k => exact ⟨k, .inr ⟨.inr rfl, by simpa [argLegal] using h⟩⟩
  | keyexp | enct | dect | encb | decb | ldblk | stblk => cases h

/-- Settles O43: the code in `ERR` is that of the first error, whose cause is known. -/
theorem resultCodesPerCommand : Obligations.ResultCodesPerCommand := by
  intro i s t h
  refine ⟨(codeWritten_iff_mem t.err).1 (codeWritten_exec h), errorCause_of_err (e := .invalidLength) h,
    errorCause_of_err (e := .illegalCommand) h, fun h4 => ?_, fun h5 => ?_⟩
  · obtain ⟨hn, hk⟩ := errorCause_of_err (e := .noSchedule) h h4
    exact ⟨hk, mem_of_needsSchedule hn⟩
  · exact operand_of_illegalArg (errorCause_of_err (e := .badOperand) h h5)

/-- `LEN[3:0]` is 0 exactly when `LEN` is a multiple of 16 (R215). -/
theorem extractLsb'_len_eq_zero_iff (n : BitVec 32) : n.extractLsb' 0 4 = 0 ↔ n.toNat % 16 = 0 := by
  rw [← BitVec.toNat_inj, BitVec.extractLsb'_toNat, Nat.shiftRight_zero]
  rfl

/-- Settles O44: with a schedule the length is the only test DECT can fail, and only DECT makes it. -/
theorem invalidLengthIsDectOnARaggedLength : Obligations.InvalidLengthIsDectOnARaggedLength := by
  refine ⟨fun s hr hl => exec_dect_ragged hr (mt (extractLsb'_len_eq_zero_iff s.len).2 hl), fun i s t h h1 => ?_⟩
  obtain ⟨hi, hl⟩ := errorCause_of_err (e := .invalidLength) h h1
  exact ⟨hi, mt (extractLsb'_len_eq_zero_iff s.len).1 hl⟩

end Sys2Proof.Machine

/-! PROOF. Statements about RESET and the hazards: the bytes a command waits for, an access while `BUSY` is 1, and the streams
after RESET (70_reset_and_hazards.md). -/

namespace Sys2Proof.Machine

/-! ### A command whose bytes the host does not present -/

/-- A command with no error and too few bytes on IN never completes (R241, U5). -/
theorem exec_starved {i : Instr} {s : State} (hf : firstError i s = none) (hn : s.inp.length < bytesTaken s i) :
    exec i s = .fault .inputStarved := by
  rw [exec_eq, hf]
  exact if_neg (Nat.not_le.2 hn)

/-- A command that answers a fault has no error, and IN is short of its bytes: an error or the effect is a next state. -/
theorem exec_fault_cases {i : Instr} {s : State} {f : Fault} (h : exec i s = .fault f) :
    firstError i s = none ∧ s.inp.length < bytesTaken s i := by
  cases hf : firstError i s with
  | some e =>
    rw [exec_of_error hf] at h
    cases h
  | none =>
    refine ⟨rfl, Nat.lt_of_not_le fun hb => ?_⟩
    rw [exec_of_no_error hf hb] at h
    cases h

/-- Settles O42: the fault of a command with no error and too few bytes is `inputStarved`, and no other command faults. -/
theorem starvedCommandHasNoNextState : Obligations.StarvedCommandHasNoNextState := by
  intro i s f
  constructor
  · intro h
    obtain ⟨hf, hn⟩ := exec_fault_cases h
    have he : Host.Outcome.fault f = .fault .inputStarved := h.symm.trans (exec_starved hf hn)
    exact ⟨Host.Outcome.fault.inj he, hf, hn⟩
  · rintro ⟨rfl, hf, hn⟩
    exact exec_starved hf hn

/-! ### An access while `BUSY` is 1 -/

/-- While `BUSY` is 1 no register takes a write (R240). -/
theorem step_write_busy {s : State} {n : RegNum} {v : Word} {rest : List HostAct} (hb : s.busy = true)
    (h : s.host = .wr n v :: rest) : step s = .fault .accessWhileBusy := by
  rw [step_act h]
  exact if_pos hb

/-- While `BUSY` is 1 no register but `STATUS` answers a read (R240). -/
theorem step_read_busy {s : State} {n : RegNum} {rest : List HostAct} (hb : s.busy = true) (h : s.host = .rd n :: rest)
    (hn : n ≠ 0x01#6) : step s = .fault .accessWhileBusy := by
  rw [step_act h]
  exact if_pos ⟨hb, mt (regOf_status_iff n).1 hn⟩

/-- A read of `STATUS` is answered whether or not `BUSY` is 1 (R240, R190). -/
theorem step_readStatus {s : State} {rest : List HostAct} (h : s.host = .rd 0x01#6 :: rest) :
    step s = .next { s with host := rest, rdata := s.rdata ++ [statusWord s] } := by
  have hr : regOf 0x01#6 = .status := (regOf_status_iff _).2 rfl
  rw [step_act h, act, readAct, if_neg (fun hb => hb.2 hr), readReg_host, hr, readReg]

/-- Settles O8. -/
theorem accessWhileBusyStops : Obligations.AccessWhileBusyStops := by
  intro s rest hb
  refine ⟨fun n v h => step_write_busy hb h, fun n h hn => step_read_busy hb h hn, fun h => ?_⟩
  rw [step_readStatus h, statusWord_eq, hb, Bool.toNat_true]

/-! ### RESET -/

/-- Settles O54: the next state is `applyReset`'s, which takes the host's side from the state before. -/
theorem resetKeepsTheStreams : Obligations.ResetKeepsTheStreams := by
  intro s rest hh
  exact ⟨_, step_reset hh, applyReset_out _, applyReset_inp _, applyReset_rdata _, applyReset_host _⟩

end Sys2Proof.Machine
